-- ==== Sys2Proof/Word.lean ====
section
/-! DEFINITION. The word types of the LS8 core and the fixed sizes of 00_scope.md R8. -/

namespace Sys2Proof

/-- One byte of memory or of an instruction (00_scope.md R10). -/
abbrev Byte := BitVec 8

/-- The content of a general register: an unsigned 8-bit value (10_state.md R21). -/
abbrev Word := BitVec 8

/-- The index of a general register, R0 to R7 (10_state.md R21). -/
abbrev RegIdx := Fin 8

/-- `MEM_SIZE` (00_scope.md R8): the addresses are 0..255. -/
abbrev memSize : Nat := 256

/-- `NREGS` (00_scope.md R8). -/
abbrev numRegs : Nat := 8

/-- `MAX_INSN_LEN` (00_scope.md R8). -/
abbrev maxInsnLen : Nat := 3

end Sys2Proof
end

