-- ==== Sys2Proof/Syntax.lean ====
section
/-! DEFINITION. The seventeen instructions as syntax: mnemonics, categories, formats, and the inductive
`Instr` with one constructor for each row of spec/opcode_table.json. -/

namespace Sys2Proof

/-- The seventeen mnemonics (00_scope.md R3), in the order of spec/opcode_table.json. -/
inductive Mnemonic where
  | add | sub | mul | div | mod | inc | dec | and | or | xor | not | shl | shr | cmp | ldi | prn | hlt
deriving DecidableEq, Repr

/-- The dispatch class of an opcode (10_state.md R38). -/
inductive Category where
  | alu | registerImmediate | registerPrint | halt
deriving DecidableEq, Repr

/-- The instruction formats (30_encoding.md R71). `frx` is that of INC and DEC when
`INCDEC_OPERAND_COUNT = 2`. -/
inductive Format where
  | f0 | fr | frr | fri | frx
deriving DecidableEq, Repr

/-- The fourteen operations the dispatcher can present to the ALU (10_state.md R35). That there is no
fifteenth is rule R87: an unsupported operation cannot reach the ALU. -/
inductive AluOp where
  | add | sub | mul | div | mod | inc | dec | and | or | xor | not | shl | shr | cmp
deriving DecidableEq, Repr

/-- An instruction. A register operand is the WHOLE operand byte (30_encoding.md R72), since a byte of 8
or more is an instruction too: it raises `RegisterOutOfRange` when it executes (10_state.md R23). -/
inductive Instr where
  | add (ra rb : Byte)
  | sub (ra rb : Byte)
  | mul (ra rb : Byte)
  | div (ra rb : Byte)
  | mod (ra rb : Byte)
  | inc (ra : Byte)
  | dec (ra : Byte)
  | and (ra rb : Byte)
  | or (ra rb : Byte)
  | xor (ra rb : Byte)
  | not (ra : Byte)
  | shl (ra rb : Byte)
  | shr (ra rb : Byte)
  | cmp (ra rb : Byte)
  | ldi (ra imm : Byte)
  | prn (ra : Byte)
  | hlt
deriving DecidableEq, Repr

end Sys2Proof
end

