-- ==== Sys2Proof/Config.lean ====
section
/-! DEFINITION. The configuration parameters of 00_scope.md R9, as plain data. Their default values stand in
Decode.lean (`Config.default`). The spec leaves no result undefined, so there is no free value here. -/

namespace Sys2Proof

/-- `INCDEC_OPERAND_COUNT` (00_scope.md R9, decision D4). -/
inductive IncDecOperands where
  | one | two
deriving DecidableEq, Repr

/-- `SHIFT_AMOUNT_MODE` (40_alu.md R112, decision D7). -/
inductive ShiftAmountMode where
  | modWidth | full
deriving DecidableEq, Repr

/-- `END_OF_MEMORY_MODE` (30_encoding.md R84, R85, decision D12). -/
inductive EndOfMemoryMode where
  | faultAtAdvance | faultAtNextFetch
deriving DecidableEq, Repr

/-- One entry of `REG_INIT` (00_scope.md R9): "either a byte or `unwritten`". -/
inductive RegInit where
  | unwritten
  | byte (v : Word)
deriving DecidableEq, Repr

/-- `OPCODE_MAP` (30_encoding.md R73): which mnemonic an opcode byte stands for. A byte that no entry
lists is no instruction. -/
abbrev OpcodeMap := List (Byte × Mnemonic)

/-- The five parameters "a model takes as arguments" (00_scope.md R9). -/
structure Config where
  opcodeMap      : OpcodeMap
  incDecOperands : IncDecOperands
  shiftAmount    : ShiftAmountMode
  endOfMemory    : EndOfMemoryMode
  regInit        : Vector RegInit 8
deriving DecidableEq, Repr

end Sys2Proof
end

