-- ==== Sys2Proof/WellFormed.lean ====
section
/-! DEFINITION. Well-formedness: which instructions name only registers that exist, and which opcode maps are
maps and injective. -/

namespace Sys2Proof

/-- The mnemonic of an instruction. -/
def Instr.mnemonic : Instr → Mnemonic
  | .add _ _ => .add
  | .sub _ _ => .sub
  | .mul _ _ => .mul
  | .div _ _ => .div
  | .mod _ _ => .mod
  | .inc _ => .inc
  | .dec _ => .dec
  | .and _ _ => .and
  | .or _ _ => .or
  | .xor _ _ => .xor
  | .not _ => .not
  | .shl _ _ => .shl
  | .shr _ _ => .shr
  | .cmp _ _ => .cmp
  | .ldi _ _ => .ldi
  | .prn _ => .prn
  | .hlt => .hlt

/-- The register operand bytes of an instruction, in operand order (30_encoding.md R81): the immediate of
LDI is none. -/
def Instr.regOperands : Instr → List Byte
  | .add ra rb | .sub ra rb | .mul ra rb | .div ra rb | .mod ra rb => [ra, rb]
  | .and ra rb | .or ra rb | .xor ra rb | .shl ra rb | .shr ra rb | .cmp ra rb => [ra, rb]
  | .inc ra | .dec ra | .not ra | .prn ra => [ra]
  | .ldi ra _ => [ra]
  | .hlt => []

/-- A register operand byte names a register: "index must be in [0,7]" (10_state.md R23). -/
def regByteOk (b : Byte) : Bool := decide (b.toNat < numRegs)

/-- Every register operand is in range (10_state.md R23). -/
def Instr.wf (i : Instr) : Bool := i.regOperands.all regByteOk

/-- No opcode byte is listed twice: the list is a map (30_encoding.md R73). -/
abbrev OpcodeMap.isMap (m : OpcodeMap) : Prop := (m.map Prod.fst).Nodup

/-- No mnemonic is listed twice: "it is injective" (30_encoding.md R73). -/
abbrev OpcodeMap.isInjective (m : OpcodeMap) : Prop := (m.map Prod.snd).Nodup

/-- A configuration's opcode map is an injective map (00_scope.md R9). -/
abbrev Config.wf (cfg : Config) : Prop := cfg.opcodeMap.isMap ∧ cfg.opcodeMap.isInjective

end Sys2Proof
end

