-- ==== Sys2Proof/Decode.lean ====
section
/-! DEFINITION. The instruction dispatcher (10_state.md R38) with its default opcode map, the decoder, total on
any bytes, and the encoder, both written from 30_encoding.md R71 to R76. -/

namespace Sys2Proof

/-! ### The default configuration -/

/-- The default `OPCODE_MAP`, row by row as 30_encoding.md R74 prints it. PRESUMED: the spec itself takes the
byte values from general knowledge (93_implementation_defined.md G1; notes/assumptions/2.md). -/
def defaultOpcodeMap : OpcodeMap :=
  [ (0x01, .hlt), (0x82, .ldi), (0x47, .prn),
    (0xA0, .add), (0xA1, .sub), (0xA2, .mul), (0xA3, .div), (0xA4, .mod),
    (0x65, .inc), (0x66, .dec),
    (0xA7, .cmp), (0xA8, .and), (0x69, .not), (0xAA, .or), (0xAB, .xor),
    (0xAC, .shl), (0xAD, .shr) ]

/-- The default of every parameter (00_scope.md R9). -/
def Config.default : Config where
  opcodeMap := defaultOpcodeMap
  incDecOperands := .one
  shiftAmount := .modWidth
  endOfMemory := .faultAtAdvance
  regInit := #v[.unwritten, .unwritten, .unwritten, .unwritten, .unwritten, .unwritten, .unwritten, .unwritten]

/-! ### The dispatcher -/

/-- The mnemonic an opcode byte stands for, by table lookup (30_encoding.md R73). `none` is the dispatcher's
`known = 0` (10_state.md R38). -/
def OpcodeMap.lookupMnemonic : OpcodeMap → Byte → Option Mnemonic
  | [], _ => none
  | (b, m) :: rest, op => if b = op then some m else OpcodeMap.lookupMnemonic rest op

/-- The opcode byte of a mnemonic, if the map has one. -/
def OpcodeMap.lookupByte : OpcodeMap → Mnemonic → Option Byte
  | [], _ => none
  | (b, m) :: rest, mn => if m = mn then some b else OpcodeMap.lookupByte rest mn

/-- The format of an instruction (30_encoding.md R71). -/
def Config.format (cfg : Config) : Mnemonic → Format
  | .hlt => .f0
  | .prn | .not => .fr
  | .inc | .dec =>
    match cfg.incDecOperands with
    | .one => .fr
    | .two => .frx
  | .ldi => .fri
  | .add | .sub | .mul | .div | .mod | .and | .or | .xor | .shl | .shr | .cmp => .frr

/-- The operand count of a format (30_encoding.md R71). -/
def Format.operandCount : Format → Nat
  | .f0 => 0
  | .fr => 1
  | .frr | .fri | .frx => 2

/-- The dispatcher's `operand_count` (10_state.md R38). -/
def Config.operandCount (cfg : Config) (m : Mnemonic) : Nat := (cfg.format m).operandCount

/-- `length(op) = 1 + operand_count(op)` (30_encoding.md R76). -/
def Config.instrLength (cfg : Config) (m : Mnemonic) : Nat := 1 + cfg.operandCount m

/-- The dispatcher's `category` (10_state.md R38, 30_encoding.md R74). -/
def Mnemonic.category : Mnemonic → Category
  | .hlt => .halt
  | .ldi => .registerImmediate
  | .prn => .registerPrint
  | .add | .sub | .mul | .div | .mod | .inc | .dec | .and | .or | .xor | .not | .shl | .shr | .cmp => .alu

/-- The mnemonic whose category-ALU instruction presents this operation. -/
def AluOp.mnemonic : AluOp → Mnemonic
  | .add => .add
  | .sub => .sub
  | .mul => .mul
  | .div => .div
  | .mod => .mod
  | .inc => .inc
  | .dec => .dec
  | .and => .and
  | .or => .or
  | .xor => .xor
  | .not => .not
  | .shl => .shl
  | .shr => .shr
  | .cmp => .cmp

/-- The dispatcher's `alu_op`, there exactly when the category is ALU (10_state.md R38, 30_encoding.md R87). -/
def Mnemonic.aluOp : Mnemonic → Option AluOp
  | .add => some .add
  | .sub => some .sub
  | .mul => some .mul
  | .div => some .div
  | .mod => some .mod
  | .inc => some .inc
  | .dec => some .dec
  | .and => some .and
  | .or => some .or
  | .xor => some .xor
  | .not => some .not
  | .shl => some .shl
  | .shr => some .shr
  | .cmp => some .cmp
  | .ldi | .prn | .hlt => none

/-! ### Decoding -/

/-- What decoding some bytes answers: an instruction and the bytes after it, or why there is none. -/
inductive DecodeResult where
  /-- An instruction, and the bytes that follow it. -/
  | ok (i : Instr) (rest : List Byte)
  /-- The first byte is not in `OPCODE_MAP` (30_encoding.md R77). -/
  | unknownOpcode (op : Byte)
  /-- The bytes end before the instruction does. -/
  | truncated
deriving DecidableEq, Repr

/-- The instruction a mnemonic and its operand bytes make (30_encoding.md R71, R72); a format without a second
operand (or without any) does not look at the bytes it lacks. -/
def Mnemonic.assemble (m : Mnemonic) (b1 b2 : Byte) : Instr :=
  match m with
  | .add => .add b1 b2
  | .sub => .sub b1 b2
  | .mul => .mul b1 b2
  | .div => .div b1 b2
  | .mod => .mod b1 b2
  | .inc => .inc b1
  | .dec => .dec b1
  | .and => .and b1 b2
  | .or => .or b1 b2
  | .xor => .xor b1 b2
  | .not => .not b1
  | .shl => .shl b1 b2
  | .shr => .shr b1 b2
  | .cmp => .cmp b1 b2
  | .ldi => .ldi b1 b2
  | .prn => .prn b1
  | .hlt => .hlt

/-- Decode the instruction at the front of some bytes. The opcode is looked up before any operand is asked for
(30_encoding.md R80). -/
def decode (cfg : Config) : List Byte → DecodeResult
  | [] => .truncated
  | op :: operands =>
    match cfg.opcodeMap.lookupMnemonic op with
    | none => .unknownOpcode op
    | some m =>
      let k := cfg.operandCount m
      if operands.length < k then .truncated
      else .ok (m.assemble (operands.getD 0 0) (operands.getD 1 0)) (operands.drop k)

/-! ### Encoding -/

/-- The operand bytes of INC and DEC: the ignored byte of format `FRX` is written as 0
(notes/assumptions/9.md). -/
def incDecOperandBytes (cfg : Config) (ra : Byte) : List Byte :=
  match cfg.incDecOperands with
  | .one => [ra]
  | .two => [ra, 0]

/-- The operand bytes of an instruction, in address order (30_encoding.md R71). -/
def operandBytes (cfg : Config) : Instr → List Byte
  | .add ra rb | .sub ra rb | .mul ra rb | .div ra rb | .mod ra rb => [ra, rb]
  | .and ra rb | .or ra rb | .xor ra rb | .shl ra rb | .shr ra rb | .cmp ra rb => [ra, rb]
  | .inc ra | .dec ra => incDecOperandBytes cfg ra
  | .not ra | .prn ra => [ra]
  | .ldi ra imm => [ra, imm]
  | .hlt => []

/-- The bytes of an instruction, or none where the opcode map has no byte for its mnemonic. -/
def encode (cfg : Config) (i : Instr) : Option (List Byte) :=
  (cfg.opcodeMap.lookupByte i.mnemonic).map (fun op => op :: operandBytes cfg i)

/-! ### Words numbered as spec/opcode_table.json numbers them -/

/-- The three bytes of a table word, the first byte in bits 7..0; the bits at and above `nbits` are 0. -/
def tableWordBytes (nbits w : Nat) : List Byte :=
  let v := w % 2 ^ nbits
  [BitVec.ofNat 8 v, BitVec.ofNat 8 (v / 256), BitVec.ofNat 8 (v / 65536)]

/-- The instruction the decoder reads from a table word, under the default configuration. -/
def decodeTableWord (nbits w : Nat) : Option Instr :=
  match decode Config.default (tableWordBytes nbits w) with
  | .ok i _ => some i
  | .unknownOpcode _ => none
  | .truncated => none

end Sys2Proof
end

