-- ==== Sys2Proof/Machine/State.lean ====
section
/-! DEFINITION. The state of the LS8 core (10_state.md R20) as plain data, its reset values (R42), and the
reasons a step of the Lean machine can stop. -/

namespace Sys2Proof.Machine

/-- The comparison flags `FL` (10_state.md R25): `l` is `FL.L`, `g` is `FL.G`, `e` is `FL.E`. -/
structure Flags where
  l : Bool
  g : Bool
  e : Bool
deriving DecidableEq, Repr

/-- The run status (10_state.md R29). -/
inductive Status where
  | idle | running | halted | faulted
deriving DecidableEq, Repr

/-- The five fault causes of the hardware (60_exceptions.md R151), with the values they record. These are
states of the modelled machine, not stops of the model: taking one is a next state (R152). -/
inductive Cause where
  | unknownOpcode (addr : BitVec 8) (byte : Byte)
  | addressOutOfRange (addr : BitVec 9)
  | registerOutOfRange (index : Byte)
  | divisionByZero
  | programTooLarge
deriving DecidableEq, Repr

/-- Memory (20_memory.md R50): the cells that hold another byte than 0, by strictly rising address. An address
below 256 that is not listed holds 0, as the spec's reset leaves it (10_state.md R42). -/
abbrev Memory := List Host.Cell

/-- The whole state of the machine (10_state.md R20). `cfg` is not state by the spec: it is the fixed
configuration of 00_scope.md R9, carried along and never changed (notes/assumptions/1.md). `written` is the
spec's `unwritten` mark of each register, negated (10_state.md R24). -/
structure State where
  cfg     : Config
  mem     : Memory
  regs    : Vector Word 8
  written : Vector Bool 8
  flags   : Flags
  pc      : BitVec 9
  status  : Status
  cause   : Option Cause
  out     : List Word
deriving DecidableEq, Repr

/-- The reasons the Lean machine stops with a fault: there are none. Each of the hardware's five faults has an
entry the spec describes (60_exceptions.md R152) and is therefore a next state, and every step outside
`Running` is a next state too (30_encoding.md R86). Safe: nothing stops (notes/assumptions/5.md). -/
inductive Fault where
deriving DecidableEq, Repr

/-- The reasons the Lean machine refuses. -/
inductive Refusal where
  /-- Raised by `exec` for an instruction that has no meaning yet; every instruction has one, so no arm raises
  it. Safe. -/
  | notModelled (mnemonic : String)
  /-- Raised by `load`, never by a step: a load requested while `Running` "is refused and has no effect"
  (70_reset_and_hazards.md R183). Safe: the spec gives the host no such move. -/
  | loadWhileRunning
deriving DecidableEq, Repr

/-- The value register `i` holds after reset: the byte of `REG_INIT[i]` where it is one. DESIGN CHOICE: 0 where
it is `unwritten`, for which the spec gives no value (10_state.md R24; notes/assumptions/3.md). -/
def regInitValue (r : RegInit) : Word :=
  match r with
  | .unwritten => 0
  | .byte v => v

/-- Whether `REG_INIT[i]` gives the register a value (10_state.md R24). -/
def regInitWritten (r : RegInit) : Bool :=
  match r with
  | .unwritten => false
  | .byte _ => true

/-- The registers after reset (10_state.md R42). -/
def initRegs (r : Vector RegInit 8) : Vector Word 8 :=
  #v[regInitValue r[0], regInitValue r[1], regInitValue r[2], regInitValue r[3],
     regInitValue r[4], regInitValue r[5], regInitValue r[6], regInitValue r[7]]

/-- The written marks after reset (10_state.md R24, R42). -/
def initWritten (r : Vector RegInit 8) : Vector Bool 8 :=
  #v[regInitWritten r[0], regInitWritten r[1], regInitWritten r[2], regInitWritten r[3],
     regInitWritten r[4], regInitWritten r[5], regInitWritten r[6], regInitWritten r[7]]

/-- The power-on state under a configuration (10_state.md R42, column "at power-on (`Idle`)"). -/
def State.powerOn (cfg : Config) : State where
  cfg := cfg
  mem := []
  regs := initRegs cfg.regInit
  written := initWritten cfg.regInit
  flags := ⟨false, false, false⟩
  pc := 0
  status := .idle
  cause := none
  out := []

/-- The machine right after reset: the power-on state under the default configuration (10_state.md R42). No
program is loaded; `load` or `State.withFetchWord` brings one in (notes/assumptions/7.md). -/
def State.reset : State := State.powerOn Config.default

end Sys2Proof.Machine
end

