-- ==== Sys2Proof/Machine/Memory.lean ====
section
/-! DEFINITION. The memory block `memory_controller_256byte` (10_state.md R36): reading and writing one byte of a
memory in canonical form, with the range error apart from every data value. -/

namespace Sys2Proof.Machine

/-- The byte at an address, 0 where none is listed (10_state.md R42). -/
def Memory.get : Memory → Nat → Byte
  | [], _ => 0
  | (b, v) :: rest, a => if b = a then v else Memory.get rest a

/-- Put a byte at an address, keeping the cells sorted and free of zeros. -/
def Memory.put : Memory → Nat → Byte → Memory
  | [], a, v => if v = 0 then [] else [(a, v)]
  | (b, w) :: rest, a, v =>
    if a < b then (if v = 0 then (b, w) :: rest else (a, v) :: (b, w) :: rest)
    else if a = b then (if v = 0 then rest else (a, v) :: rest)
    else (b, w) :: Memory.put rest a v

/-- The read port: the byte, or `none` for `rd_err = 1` when the address is 256 or more (10_state.md R36). -/
def Memory.read (m : Memory) (a : Nat) : Option Byte :=
  if a < memSize then some (m.get a) else none

/-- The write port: the new memory, or `none` for `wr_err = 1` (10_state.md R36). -/
def Memory.write (m : Memory) (a : Nat) (v : Byte) : Option Memory :=
  if a < memSize then some (m.put a v) else none

/-- The canonical form: addresses strictly rising and below 256, no listed byte equal to what an unlisted address
reads as. -/
abbrev Memory.wf (m : Memory) : Prop :=
  m.Pairwise (fun c d => c.1 < d.1) ∧ ∀ c ∈ m, c.1 < memSize ∧ c.2 ≠ 0

end Sys2Proof.Machine
end

