-- ==== Sys2Proof/Machine/Ops.lean ====
section
/-! DEFINITION. The named operations of the machine: register, flag, output and pc access, `MemRead` and
`MemWrite`, taking a fault, completing an instruction, and the load transaction. -/

namespace Sys2Proof.Machine

/-! ### Registers, flags, output, pc (00_scope.md R11) -/

/-- `x[i]`. -/
def State.reg (s : State) (i : RegIdx) : Word := s.regs[i]

/-- Whether `x[i]` holds a value the spec gives: it is not `unwritten` (10_state.md R24). -/
def State.isWritten (s : State) (i : RegIdx) : Bool := s.written[i]

/-- `x[i] <- v`; the register is no longer `unwritten` (10_state.md R24). -/
def State.setReg (s : State) (i : RegIdx) (v : Word) : State :=
  { s with regs := s.regs.set i v, written := s.written.set i true }

/-- `FL <- (l, g, e)`. -/
def State.setFlags (s : State) (f : Flags) : State := { s with flags := f }

/-- `emit(v)`: append to the output event stream (41_ldi_prn_hlt.md R142). -/
def State.emit (s : State) (v : Word) : State := { s with out := s.out ++ [v] }

/-- `pc <- target`. -/
def State.setPc (s : State) (target : Nat) : State := { s with pc := BitVec.ofNat 9 target }

/-- `status <- Halted`, the whole effect of a halt (41_ldi_prn_hlt.md R143). -/
def State.halt (s : State) : State := { s with status := .halted }

/-! ### Taking a fault -/

/-- `raise <Cause>`: `status <- Faulted`, `cause <- c` and nothing else (60_exceptions.md R152, R153). There is no
return from a fault (R155): only a fresh load leaves it. -/
def raise (c : Cause) (s : State) : State := { s with status := .faulted, cause := some c }

/-! ### Memory access (00_scope.md R11) -/

/-- `MemRead(addr, 1)` (20_memory.md R52). -/
def memRead (s : State) (a : Nat) : Except Cause Byte :=
  match s.mem.read a with
  | some v => .ok v
  | none => .error (.addressOutOfRange (BitVec.ofNat 9 a))

/-- `MemWrite(addr, 1, v)` (20_memory.md R53); its only user is the load. -/
def memWrite (s : State) (a : Nat) (v : Byte) : Except Cause State :=
  match s.mem.write a v with
  | some m => .ok { s with mem := m }
  | none => .error (.addressOutOfRange (BitVec.ofNat 9 a))

/-- Write bytes at rising addresses. -/
def memWriteAll (s : State) (a : Nat) : List Byte → Except Cause State
  | [] => .ok s
  | v :: rest =>
    match memWrite s a v with
    | .ok s' => memWriteAll s' (a + 1) rest
    | .error c => .error c

/-! ### Completing an instruction -/

/-- What an instruction writes when it completes: one register, or the flags, or one output event
(30_encoding.md R83). -/
inductive Effect where
  | reg (d : RegIdx) (v : Word)
  | flags (f : Flags)
  | emit (v : Word)
deriving DecidableEq, Repr

/-- "commit the register or flag write, or the emit, of the instruction" (30_encoding.md R80). -/
def commit (e : Effect) (s : State) : State :=
  match e with
  | .reg d v => s.setReg d v
  | .flags f => s.setFlags f
  | .emit v => s.emit v

/-- The last address a pc may hold: 255 in the default mode (30_encoding.md R84), 256 in the other (R85). -/
def lastPc : EndOfMemoryMode → Nat
  | .faultAtAdvance => 255
  | .faultAtNextFetch => 256

/-- The end of a step of a non-halt instruction: the advance check of 30_encoding.md R80, then the commit and the
advance by the instruction's length (R76). The reported address is "the first address past memory, always 256"
(60_exceptions.md R151; notes/assumptions/6.md). In `FAULT_AT_NEXT_FETCH` mode a fetched instruction ends at 256
at most, so the check never fails there (R85). -/
def complete (m : Mnemonic) (e : Effect) (s : State) : State :=
  let next := s.pc.toNat + s.cfg.instrLength m
  if lastPc s.cfg.endOfMemory < next then raise (.addressOutOfRange 256) s
  else (commit e s).setPc next

/-! ### The load transaction -/

/-- The part of `load(prog)` after the request is accepted (70_reset_and_hazards.md R180): every piece of state is
reset, then the program is copied to address 0, unless it is longer than memory (R182). -/
def loadFresh (cfg : Config) (prog : List Byte) : State :=
  let s := State.powerOn cfg
  if memSize < prog.length then raise .programTooLarge s
  else
    match memWriteAll s 0 prog with
    | .ok s' => { s' with status := .running }
    | .error c => raise c s

/-- The load transaction of the host (70_reset_and_hazards.md R180 to R183). -/
def load (prog : List Byte) (s : State) : Host.Outcome State Fault Refusal :=
  match s.status with
  | .running => .refused .loadWhileRunning
  | .idle | .halted | .faulted => .next (loadFresh s.cfg prog)

end Sys2Proof.Machine
end

