-- ==== Sys2Proof/Machine/Flags.lean ====
section
/-! DEFINITION. The one flag computation of the core: the comparison of CMP (40_alu.md R115). -/

namespace Sys2Proof.Machine

/-- `(a < b, a > b, a = b)` of two unsigned words (40_alu.md R115). -/
def compareFlags (a b : Word) : Flags where
  l := decide (a.toNat < b.toNat)
  g := decide (b.toNat < a.toNat)
  e := decide (a.toNat = b.toNat)

end Sys2Proof.Machine
end

