-- ==== Sys2Proof/Machine/Operands.lean ====
section
/-! DEFINITION. The operand forms: a register operand byte with its range check (10_state.md R23, 30_encoding.md
R81), and the shift amount of SHL and SHR (40_alu.md R112). An immediate is its byte (R72). -/

namespace Sys2Proof.Machine

/-- Use a register operand byte: the index it is, or `RegisterOutOfRange(index)` when it is 8 or more, before any
register is read or written (10_state.md R23). Nesting two of these checks `ra` before `rb` (R81). -/
def withReg (b : Byte) (s : State) (use : RegIdx → State) : State :=
  if h : b.toNat < 8 then use ⟨b.toNat, h⟩ else raise (.registerOutOfRange b) s

/-- `shamt(b)` (40_alu.md R112). -/
def shiftAmount (mode : ShiftAmountMode) (b : Word) : Nat :=
  match mode with
  | .modWidth => b.toNat % 8
  | .full => b.toNat

end Sys2Proof.Machine
end

