-- ==== Sys2Proof/Machine/Alu.lean ====
section
/-! DEFINITION. The block `simple_alu` (10_state.md R35) and the shared course of the ALU instructions (40_alu.md
R100). -/

namespace Sys2Proof.Machine

/-- What the ALU drives (10_state.md R35): a result (`wr_result`), or flags (`wr_flags`), or `div_zero`, and never
two of them. -/
inductive AluOut where
  | result (v : Word)
  | flags (f : Flags)
  | divZero
deriving DecidableEq, Repr

/-- "Pure function `apply(op, a, b) -> result`" (10_state.md R35, 40_alu.md R101 to R116): unsigned, modulo 256.
INC, DEC and NOT ignore `b`. -/
def aluApply (mode : ShiftAmountMode) (op : AluOp) (a b : Word) : AluOut :=
  match op with
  | .add => .result (a + b)
  | .sub => .result (a - b)
  | .mul => .result (a * b)
  | .div => if b = 0 then .divZero else .result (a / b)
  | .mod => if b = 0 then .divZero else .result (a % b)
  | .inc => .result (a + 1)
  | .dec => .result (a - 1)
  | .and => .result (a &&& b)
  | .or => .result (a ||| b)
  | .xor => .result (a ^^^ b)
  | .not => .result (~~~a)
  | .shl => .result (a <<< shiftAmount mode b)
  | .shr => .result (a >>> shiftAmount mode b)
  | .cmp => .flags (compareFlags a b)

/-- The rest of an ALU instruction once its operands are read: `DivisionByZero`, or completion with the result in
the destination or with the flags (40_alu.md R100, 60_exceptions.md R154). -/
def aluFinish (op : AluOp) (d : RegIdx) (a b : Word) (s : State) : State :=
  match aluApply s.cfg.shiftAmount op a b with
  | .result v => complete op.mnemonic (.reg d v) s
  | .flags f => complete op.mnemonic (.flags f) s
  | .divZero => raise .divisionByZero s

/-- An ALU instruction over two register operands; the first is the destination (40_alu.md R100). -/
def aluTwo (op : AluOp) (ra rb : Byte) (s : State) : State :=
  withReg ra s fun i => withReg rb s fun j => aluFinish op i (s.reg i) (s.reg j) s

/-- An ALU instruction over one register operand; the ALU ignores its second input (10_state.md R35). -/
def aluOne (op : AluOp) (ra : Byte) (s : State) : State :=
  withReg ra s fun i => aluFinish op i (s.reg i) 0 s

end Sys2Proof.Machine
end

