-- ==== Sys2Proof/Machine/Arithmetic.lean ====
section
/-! DEFINITION. The meanings of the arithmetic instructions ADD, SUB, MUL, DIV, MOD, INC and DEC. -/

namespace Sys2Proof.Machine

/-- ADD (40_alu.md R101). -/
def execAdd (ra rb : Byte) (s : State) : Host.Outcome State Fault Refusal := .next (aluTwo .add ra rb s)

/-- SUB (40_alu.md R102). -/
def execSub (ra rb : Byte) (s : State) : Host.Outcome State Fault Refusal := .next (aluTwo .sub ra rb s)

/-- MUL (40_alu.md R103). -/
def execMul (ra rb : Byte) (s : State) : Host.Outcome State Fault Refusal := .next (aluTwo .mul ra rb s)

/-- DIV (40_alu.md R104). -/
def execDiv (ra rb : Byte) (s : State) : Host.Outcome State Fault Refusal := .next (aluTwo .div ra rb s)

/-- MOD (40_alu.md R105). -/
def execMod (ra rb : Byte) (s : State) : Host.Outcome State Fault Refusal := .next (aluTwo .mod ra rb s)

/-- INC (40_alu.md R106). -/
def execInc (ra : Byte) (s : State) : Host.Outcome State Fault Refusal := .next (aluOne .inc ra s)

/-- DEC (40_alu.md R107). -/
def execDec (ra : Byte) (s : State) : Host.Outcome State Fault Refusal := .next (aluOne .dec ra s)

end Sys2Proof.Machine
end

