-- ==== Sys2Proof/Machine/Bitwise.lean ====
section
/-! DEFINITION. The meanings of the bitwise instructions AND, OR, XOR, NOT and of the shifts SHL, SHR. -/

namespace Sys2Proof.Machine

/-- AND (40_alu.md R108). -/
def execAnd (ra rb : Byte) (s : State) : Host.Outcome State Fault Refusal := .next (aluTwo .and ra rb s)

/-- OR (40_alu.md R109). -/
def execOr (ra rb : Byte) (s : State) : Host.Outcome State Fault Refusal := .next (aluTwo .or ra rb s)

/-- XOR (40_alu.md R110). -/
def execXor (ra rb : Byte) (s : State) : Host.Outcome State Fault Refusal := .next (aluTwo .xor ra rb s)

/-- NOT (40_alu.md R111). -/
def execNot (ra : Byte) (s : State) : Host.Outcome State Fault Refusal := .next (aluOne .not ra s)

/-- SHL (40_alu.md R113). -/
def execShl (ra rb : Byte) (s : State) : Host.Outcome State Fault Refusal := .next (aluTwo .shl ra rb s)

/-- SHR (40_alu.md R114). -/
def execShr (ra rb : Byte) (s : State) : Host.Outcome State Fault Refusal := .next (aluTwo .shr ra rb s)

end Sys2Proof.Machine
end

