-- ==== Sys2Proof/Machine/Compare.lean ====
section
/-! DEFINITION. The meaning of CMP, the one instruction that writes the flags. -/

namespace Sys2Proof.Machine

/-- CMP (40_alu.md R115). -/
def execCmp (ra rb : Byte) (s : State) : Host.Outcome State Fault Refusal := .next (aluTwo .cmp ra rb s)

end Sys2Proof.Machine
end

