-- ==== Sys2Proof/Machine/LdiPrnHlt.lean ====
section
/-! DEFINITION. The meanings of LDI, PRN and HLT, one for each category outside ALU. -/

namespace Sys2Proof.Machine

/-- LDI (41_ldi_prn_hlt.md R140): the immediate goes to the register, which is not read. -/
def execLdi (ra imm : Byte) (s : State) : Host.Outcome State Fault Refusal :=
  .next (withReg ra s fun d => complete .ldi (.reg d imm) s)

/-- PRN (41_ldi_prn_hlt.md R141): one output event with the register's value. -/
def execPrn (ra : Byte) (s : State) : Host.Outcome State Fault Refusal :=
  .next (withReg ra s fun r => complete .prn (.emit (s.reg r)) s)

/-- HLT (41_ldi_prn_hlt.md R143): the run ends; the pc keeps the address of the HLT byte. -/
def execHlt (s : State) : Host.Outcome State Fault Refusal := .next s.halt

end Sys2Proof.Machine
end

