-- ==== Sys2Proof/Machine/Fetch.lean ====
section
/-! DEFINITION. Fetching: the bytes at the pc and the instruction they decode to, or the fault of the fetch
(30_encoding.md R80), and the placing of a word where the next step fetches. -/

namespace Sys2Proof.Machine

/-- Up to `n` bytes from an address, ending at the first address that cannot be read (20_memory.md R52, R55). -/
def bytesFrom (s : State) (a : Nat) : Nat → List Byte
  | 0 => []
  | n + 1 =>
    match memRead s a with
    | .ok v => v :: bytesFrom s (a + 1) n
    | .error _ => []

/-- What a fetch answers. -/
inductive FetchResult where
  | instr (i : Instr)
  | fault (c : Cause)
deriving DecidableEq, Repr

/-- Fetch and decode at the pc (30_encoding.md R80). Reading past the instruction's own bytes has no effect
(20_memory.md R52). Where the bytes end too soon, the first address that could not be read is reported. -/
def fetch (s : State) : FetchResult :=
  let p := s.pc.toNat
  let bytes := bytesFrom s p maxInsnLen
  match decode s.cfg bytes with
  | .ok i _ => .instr i
  | .unknownOpcode op => .fault (.unknownOpcode (BitVec.ofNat 8 p) op)
  | .truncated => .fault (.addressOutOfRange (BitVec.ofNat 9 (p + bytes.length)))

/-- The state with a table word's bytes at the pc, as many as lie inside memory, ready to run. -/
def placeWord (s : State) (nbits w : Nat) : State :=
  let p := s.pc.toNat
  match memWriteAll s p ((tableWordBytes nbits w).take (memSize - p)) with
  | .ok s' => { s' with status := .running, cause := none }
  | .error _ => s

end Sys2Proof.Machine
end

