-- ==== Sys2Proof/Machine/Step.lean ====
section
/-! DEFINITION. The step transaction of the host (70_reset_and_hazards.md R184) and the host's way to place one
instruction. -/

namespace Sys2Proof.Machine

/-- One step: fetch, decode and execute when `Running` (30_encoding.md R80), no effect otherwise (R86). -/
def step (s : State) : Host.Outcome State Fault Refusal :=
  match s.status with
  | .running =>
    match fetch s with
    | .instr i => exec i s
    | .fault c => .next (raise c s)
  | .idle => .next s
  | .halted => .next s
  | .faulted => .next s

/-- `s` with one instruction stored where the next step fetches it, and running: it stands for a load
(notes/assumptions/7.md). -/
def State.withFetchWord (s : State) (nbits w : Nat) : State := placeWord s nbits w

end Sys2Proof.Machine
end

