-- ==== Sys2Proof/Machine/HostView.lean ====
section
/-! DEFINITION. What the host reads between steps (70_reset_and_hazards.md R186), as the numbers the spec gives for
it. No instruction reads any of these. -/

namespace Sys2Proof.Machine

/-- The 2-bit code of the status (10_state.md R29). -/
def Status.code : Status → BitVec 2
  | .idle => 0
  | .running => 1
  | .halted => 2
  | .faulted => 3

/-- The code of a fault cause (60_exceptions.md R151). -/
def Cause.code : Cause → Nat
  | .unknownOpcode _ _ => 1
  | .addressOutOfRange _ => 2
  | .registerOutOfRange _ => 3
  | .divisionByZero => 4
  | .programTooLarge => 5

/-- `FL` as the byte `0b00000LGE` (10_state.md R26; PRESUMED: the spec takes the packing from general knowledge,
93_implementation_defined.md G3, notes/assumptions/10.md). -/
def Flags.toByte (f : Flags) : Byte :=
  BitVec.ofNat 8 (4 * f.l.toNat + 2 * f.g.toNat + f.e.toNat)

/-- The source's "Halted flag": `status = Halted or status = Faulted` (10_state.md R30). -/
def State.stopped (s : State) : Bool :=
  match s.status with
  | .halted => true
  | .faulted => true
  | .idle => false
  | .running => false

/-- The output port between two states of a run: the events of the later one that the earlier has not
(10_state.md R39, R41). -/
def outEvents (before after : State) : List Word := after.out.drop before.out.length

end Sys2Proof.Machine
end

