-- ==== Sys2Proof/Safety.lean ====
section
/-! DEFINITION. The invariant of the machine, and which steps and runs read no `unwritten` register: the terms in
which the claims are stated. -/

namespace Sys2Proof.Machine

/-- The pc stays within memory bounds, one past the end in `FAULT_AT_NEXT_FETCH` mode (10_state.md R27, R28). -/
abbrev State.PcInBounds (s : State) : Prop := s.pc.toNat ≤ lastPc s.cfg.endOfMemory

/-- "`cause` is meaningful only when `status = Faulted`"; "in every other status `cause = none`" (10_state.md
R31). -/
abbrev State.CauseMatchesStatus (s : State) : Prop := s.cause ≠ none ↔ s.status = .faulted

/-- At most one flag is set: none before the first CMP, exactly one after it (10_state.md R25). -/
abbrev Flags.AtMostOne (f : Flags) : Prop := f.l.toNat + f.g.toNat + f.e.toNat ≤ 1

/-- The invariant that every step and every load keeps. -/
abbrev State.Inv (s : State) : Prop :=
  s.mem.wf ∧ s.PcInBounds ∧ s.CauseMatchesStatus ∧ s.flags.AtMostOne

/-- The operand bytes of the registers an instruction READS (10_state.md R22, R24): LDI and HLT read none; INC, DEC
and every two-register ALU instruction read their destination too. -/
def readOperands : Instr → List Byte
  | .add ra rb | .sub ra rb | .mul ra rb | .div ra rb | .mod ra rb => [ra, rb]
  | .and ra rb | .or ra rb | .xor ra rb | .shl ra rb | .shr ra rb | .cmp ra rb => [ra, rb]
  | .inc ra | .dec ra | .not ra | .prn ra => [ra]
  | .ldi _ _ | .hlt => []

/-- The byte names a register that is `unwritten` (10_state.md R24). -/
def State.unwrittenByte (s : State) (b : Byte) : Bool :=
  if h : b.toNat < 8 then !s.isWritten ⟨b.toNat, h⟩ else false

/-- The instruction reads an `unwritten` register: the case the spec calls `ReadUnwritten` (10_state.md R24). An
instruction with a register operand out of range reads nothing (R23). -/
def readsUnwritten (i : Instr) (s : State) : Bool :=
  i.wf && (readOperands i).any s.unwrittenByte

/-- The next step reads an `unwritten` register. -/
def stepReadsUnwritten (s : State) : Bool :=
  match s.status with
  | .running =>
    match fetch s with
    | .instr i => readsUnwritten i s
    | .fault _ => false
  | .idle => false
  | .halted => false
  | .faulted => false

/-- `k` steps of the machine behind the host's interface, stopping at a stop. -/
def run (k : Nat) (s : State) : Host.Outcome State Fault Refusal := Host.Core.run Sys2Proof.core k s

/-- None of the next `k` steps reads an `unwritten` register: the spec gives every value of this run
(70_reset_and_hazards.md R185). -/
def specDetermined : Nat → State → Bool
  | 0, _ => true
  | k + 1, s =>
    !stepReadsUnwritten s &&
      match step s with
      | .next t => specDetermined k t
      | .fault _ => true
      | .refused _ => true

/-- Two states that differ at most in the values of `unwritten` registers, which the spec does not give
(10_state.md R24). -/
structure State.AgreeOnWritten (s t : State) : Prop where
  cfg : s.cfg = t.cfg
  mem : s.mem = t.mem
  written : s.written = t.written
  regs : ∀ i : RegIdx, s.isWritten i = true → s.reg i = t.reg i
  flags : s.flags = t.flags
  pc : s.pc = t.pc
  status : s.status = t.status
  cause : s.cause = t.cause
  out : s.out = t.out

end Sys2Proof.Machine
end

