-- ==== Sys2Proof/Certificates/Slice0/Obligations.lean ====
section
/-! DEFINITION. The statements for the provers, and the few predicates they share. -/

namespace Sys2Proof.Machine

/-! ### The shared predicates -/

/-- Every byte of memory reads as before. -/
def KeepsMemory (s t : State) : Prop := ∀ a : Nat, t.mem.read a = s.mem.read a

/-- Every general register, and its `unwritten` mark, is as before. -/
def KeepsRegs (s t : State) : Prop := ∀ i : RegIdx, t.reg i = s.reg i ∧ t.isWritten i = s.isWritten i

/-- Register `d` now holds the number `v`, is no longer `unwritten`, and every other register is as before. -/
def WritesReg (d : RegIdx) (v : Nat) (s t : State) : Prop :=
  (t.reg d).toNat = v ∧ t.isWritten d = true ∧
    ∀ i : RegIdx, i ≠ d → t.reg i = s.reg i ∧ t.isWritten i = s.isWritten i

/-- The run goes on as it was: status, cause and configuration are as before. -/
def KeepsRun (s t : State) : Prop := t.status = s.status ∧ t.cause = s.cause ∧ t.cfg = s.cfg

/-- The pc has advanced by `len`. -/
def Advances (len : Nat) (s t : State) : Prop := t.pc.toNat = s.pc.toNat + len

/-- A completed instruction whose one effect is a register. -/
def RegResult (d : RegIdx) (v len : Nat) (s t : State) : Prop :=
  WritesReg d v s t ∧ t.flags = s.flags ∧ t.out = s.out ∧ KeepsMemory s t ∧ KeepsRun s t ∧ Advances len s t

/-- A completed instruction whose one effect is the flags. -/
def FlagsResult (l g e : Prop) (len : Nat) (s t : State) : Prop :=
  (t.flags.l = true ↔ l) ∧ (t.flags.g = true ↔ g) ∧ (t.flags.e = true ↔ e) ∧
    KeepsRegs s t ∧ t.out = s.out ∧ KeepsMemory s t ∧ KeepsRun s t ∧ Advances len s t

/-- A completed instruction whose one effect is an output event. -/
def EmitResult (v : Word) (len : Nat) (s t : State) : Prop :=
  t.out = s.out ++ [v] ∧ KeepsRegs s t ∧ t.flags = s.flags ∧ KeepsMemory s t ∧ KeepsRun s t ∧ Advances len s t

/-- `t` is `s` after taking the fault `c`: status and cause are set, everything else is as before (60_exceptions.md
R152, R153). -/
def FaultEntry (c : Cause) (s t : State) : Prop :=
  t.status = .faulted ∧ t.cause = some c ∧ KeepsMemory s t ∧ KeepsRegs s t ∧ t.flags = s.flags ∧ t.pc = s.pc ∧
    t.out = s.out ∧ t.cfg = s.cfg

/-- Executing `i` in `s` takes the fault `c`. -/
def ExecFaults (i : Instr) (c : Cause) (s : State) : Prop := ∃ t, exec i s = .next t ∧ FaultEntry c s t

/-- The next step from `s` takes the fault `c`. -/
def StepFaults (c : Cause) (s : State) : Prop := ∃ t, step s = .next t ∧ FaultEntry c s t

/-- An instruction of `len` bytes at the pc ends where the configuration lets it complete: the next pc is at most 255,
or 256 in `FAULT_AT_NEXT_FETCH` mode (30_encoding.md R84, R85). -/
def Fits (len : Nat) (s : State) : Prop :=
  s.pc.toNat + len < 256 ∨ (s.cfg.endOfMemory = .faultAtNextFetch ∧ s.pc.toNat + len = 256)

/-- The first register operand byte that is 8 or more, in operand order (30_encoding.md R81). -/
def firstBadRegister (i : Instr) : Option Byte := i.regOperands.find? (fun b => decide (8 ≤ b.toNat))

/-- The instruction is DIV or MOD and its divisor register holds 0 (60_exceptions.md R151). -/
def DividesByZero (i : Instr) (s : State) : Prop :=
  ∃ (ra rb : Byte) (j : RegIdx), (i = .div ra rb ∨ i = .mod ra rb) ∧ rb.toNat = j.val ∧ s.reg j = 0

/-- The register checks of an instruction over two register operands. -/
def ChecksTwo (mk : Byte → Byte → Instr) (s : State) (ra rb : Byte) : Prop :=
  (8 ≤ ra.toNat → ExecFaults (mk ra rb) (.registerOutOfRange ra) s) ∧
    (ra.toNat < 8 → 8 ≤ rb.toNat → ExecFaults (mk ra rb) (.registerOutOfRange rb) s)

/-- The course of a three-byte instruction over two registers whose first receives `f mode a b`. -/
def TwoRegisterRule (mk : Byte → Byte → Instr) (f : ShiftAmountMode → Nat → Nat → Nat) : Prop :=
  ∀ (s : State) (ra rb : Byte), ChecksTwo mk s ra rb ∧
    ∀ i j : RegIdx, ra.toNat = i.val → rb.toNat = j.val →
      (Fits 3 s → ∃ t, exec (mk ra rb) s = .next t ∧
        RegResult i (f s.cfg.shiftAmount (s.reg i).toNat (s.reg j).toNat) 3 s t) ∧
      (¬ Fits 3 s → ExecFaults (mk ra rb) (.addressOutOfRange 256) s)

/-- The course of DIV or MOD, whose first register receives `f a b` unless `b` is 0. -/
def DivisionRule (mk : Byte → Byte → Instr) (f : Nat → Nat → Nat) : Prop :=
  ∀ (s : State) (ra rb : Byte), ChecksTwo mk s ra rb ∧
    ∀ i j : RegIdx, ra.toNat = i.val → rb.toNat = j.val →
      ((s.reg j).toNat = 0 → ExecFaults (mk ra rb) .divisionByZero s) ∧
      ((s.reg j).toNat ≠ 0 → Fits 3 s → ∃ t, exec (mk ra rb) s = .next t ∧
        RegResult i (f (s.reg i).toNat (s.reg j).toNat) 3 s t) ∧
      ((s.reg j).toNat ≠ 0 → ¬ Fits 3 s → ExecFaults (mk ra rb) (.addressOutOfRange 256) s)

/-- The course of an instruction over one register that receives `f a`. -/
def OneRegisterRule (mk : Byte → Instr) (len : Config → Nat) (f : Nat → Nat) : Prop :=
  ∀ (s : State) (ra : Byte), (8 ≤ ra.toNat → ExecFaults (mk ra) (.registerOutOfRange ra) s) ∧
    ∀ i : RegIdx, ra.toNat = i.val →
      (Fits (len s.cfg) s → ∃ t, exec (mk ra) s = .next t ∧ RegResult i (f (s.reg i).toNat) (len s.cfg) s t) ∧
      (¬ Fits (len s.cfg) s → ExecFaults (mk ra) (.addressOutOfRange 256) s)

/-- The length of INC and DEC under `INCDEC_OPERAND_COUNT` (30_encoding.md R76). -/
def incDecLength (cfg : Config) : Nat :=
  match cfg.incDecOperands with
  | .one => 2
  | .two => 3

/-- `shamt(b)` as 40_alu.md R112 gives it. -/
def shamt (mode : ShiftAmountMode) (b : Nat) : Nat :=
  match mode with
  | .modWidth => b % 8
  | .full => b

/-- The state with another `END_OF_MEMORY_MODE`. -/
def withEndOfMemory (mode : EndOfMemoryMode) (s : State) : State :=
  { s with cfg := { s.cfg with endOfMemory := mode } }

/-- What a load sets whatever the program's length: registers by `REG_INIT`, flags, pc and output (70_reset_and_hazards.md
R180). No value is said of an `unwritten` register. -/
def LoadResets (s t : State) : Prop :=
  t.cfg = s.cfg ∧
    (∀ i : RegIdx, (∀ v, s.cfg.regInit[i] = .byte v → t.reg i = v ∧ t.isWritten i = true) ∧
      (s.cfg.regInit[i] = .unwritten → t.isWritten i = false)) ∧
    t.flags = ⟨false, false, false⟩ ∧ t.pc = 0 ∧ t.out = []

end Sys2Proof.Machine

open Sys2Proof Sys2Proof.Machine

/-! ### Encoding -/

/-- Under the default `OPCODE_MAP` each opcode byte with its operand bytes decodes to its instruction, whatever
follows (30_encoding.md R71, R74). The byte values are the spec's general knowledge (G1, notes/assumptions/2.md). -/
def Obligations.DefaultOpcodeBytesDecode : Prop :=
  ∀ (ra rb : Byte) (rest : List Byte),
    decode Config.default (0xA0 :: ra :: rb :: rest) = .ok (.add ra rb) rest ∧
    decode Config.default (0xA1 :: ra :: rb :: rest) = .ok (.sub ra rb) rest ∧
    decode Config.default (0xA2 :: ra :: rb :: rest) = .ok (.mul ra rb) rest ∧
    decode Config.default (0xA3 :: ra :: rb :: rest) = .ok (.div ra rb) rest ∧
    decode Config.default (0xA4 :: ra :: rb :: rest) = .ok (.mod ra rb) rest ∧
    decode Config.default (0x65 :: ra :: rest) = .ok (.inc ra) rest ∧
    decode Config.default (0x66 :: ra :: rest) = .ok (.dec ra) rest ∧
    decode Config.default (0xA8 :: ra :: rb :: rest) = .ok (.and ra rb) rest ∧
    decode Config.default (0xAA :: ra :: rb :: rest) = .ok (.or ra rb) rest ∧
    decode Config.default (0xAB :: ra :: rb :: rest) = .ok (.xor ra rb) rest ∧
    decode Config.default (0x69 :: ra :: rest) = .ok (.not ra) rest ∧
    decode Config.default (0xAC :: ra :: rb :: rest) = .ok (.shl ra rb) rest ∧
    decode Config.default (0xAD :: ra :: rb :: rest) = .ok (.shr ra rb) rest ∧
    decode Config.default (0xA7 :: ra :: rb :: rest) = .ok (.cmp ra rb) rest ∧
    decode Config.default (0x82 :: ra :: rb :: rest) = .ok (.ldi ra rb) rest ∧
    decode Config.default (0x47 :: ra :: rest) = .ok (.prn ra) rest ∧
    decode Config.default (0x01 :: rest) = .ok .hlt rest

/-- The default map leaves 239 byte values without an instruction, `0x00` among them (30_encoding.md R77; the map is
G1's, notes/assumptions/2.md). -/
def Obligations.DefaultMapLeaves239BytesUnknown : Prop :=
  ((List.range 256).filter fun n =>
      (Config.default.opcodeMap.lookupMnemonic (BitVec.ofNat 8 n)).isNone).length = 239 ∧
    Config.default.opcodeMap.lookupMnemonic 0 = none ∧ Config.default.wf

/-- With `INCDEC_OPERAND_COUNT = 2`, INC and DEC take a third byte, which is fetched and otherwise ignored
(30_encoding.md R71, R72). -/
def Obligations.IncDecIgnoreTheirThirdByte : Prop :=
  ∀ (cfg : Config) (op ra x : Byte) (rest : List Byte), cfg.incDecOperands = .two →
    (cfg.opcodeMap.lookupMnemonic op = some .inc →
      decode cfg (op :: ra :: x :: rest) = .ok (.inc ra) rest ∧ decode cfg [op, ra] = .truncated) ∧
    (cfg.opcodeMap.lookupMnemonic op = some .dec →
      decode cfg (op :: ra :: x :: rest) = .ok (.dec ra) rest ∧ decode cfg [op, ra] = .truncated)

/-- Under every configuration whose opcode map is a map, decoding what the encoder writes gives the instruction back,
with every operand byte at every value, and leaves what follows (30_encoding.md R70 to R73). -/
def Obligations.DecodeOfEncodeIsTheInstruction : Prop :=
  ∀ (cfg : Config), cfg.opcodeMap.isMap → ∀ (i : Instr) (bytes rest : List Byte),
    encode cfg i = some bytes → decode cfg (bytes ++ rest) = .ok i rest

/-- Under every configuration whose opcode map is injective, what decodes to an instruction is what the encoder writes
for it, but for the byte that INC and DEC ignore when `INCDEC_OPERAND_COUNT = 2` (30_encoding.md R70 to R73). That the
encoder writes 0 in that byte is the model's choice and no rule's (notes/assumptions/9.md). -/
def Obligations.EncodeOfDecodeIsTheBytes : Prop :=
  ∀ (cfg : Config), cfg.opcodeMap.isInjective → ∀ (i : Instr) (bytes rest : List Byte),
    decode cfg bytes = .ok i rest → ∃ enc, encode cfg i = some enc ∧
      (bytes = enc ++ rest ∨
        (cfg.incDecOperands = .two ∧ ∃ op ra x : Byte, (i = .inc ra ∨ i = .dec ra) ∧
          enc = [op, ra, 0] ∧ bytes = op :: ra :: x :: rest))

/-- `length(op) = 1 + operand_count(op)`, with the lengths the rule lists, and a completed non-halt step advances the
pc by that length (30_encoding.md R76). -/
def Obligations.LengthRuleAndAdvance : Prop :=
  (∀ (cfg : Config) (m : Mnemonic),
    cfg.instrLength m = 1 + cfg.operandCount m ∧
    cfg.instrLength m =
      match m with
      | .hlt => 1
      | .prn => 2
      | .not => 2
      | .inc => incDecLength cfg
      | .dec => incDecLength cfg
      | .ldi => 3
      | .add | .sub | .mul | .div | .mod | .and | .or | .xor | .shl | .shr | .cmp => 3) ∧
  ∀ (s t : State) (i : Instr), s.status = .running → fetch s = .instr i → i ≠ .hlt → step s = .next t →
    t.status ≠ .faulted → Advances (s.cfg.instrLength i.mnemonic) s t

/-- The dispatcher presents an ALU operation exactly for the category ALU, and each of the fourteen is presented by its
own instruction (10_state.md R38, 30_encoding.md R87). -/
def Obligations.AluOperationsAreTheAluCategory : Prop :=
  (∀ m : Mnemonic, m.category = .alu ↔ m.aluOp.isSome = true) ∧
    (∀ op : AluOp, op.mnemonic.aluOp = some op ∧ op.mnemonic.category = .alu) ∧
    Mnemonic.category .ldi = .registerImmediate ∧ Mnemonic.category .prn = .registerPrint ∧
    Mnemonic.category .hlt = .halt

/-! ### The step -/

/-- When the bytes at the pc are the encoding of an instruction, a running step is `exec` of that instruction; `exec`
itself moves past the instruction's bytes (30_encoding.md R80). -/
def Obligations.StepRunsTheDecodedInstruction : Prop :=
  ∀ (s : State) (i : Instr) (bytes : List Byte), s.status = .running → decode s.cfg bytes = .ok i [] →
    (∀ k (h : k < bytes.length), s.mem.read (s.pc.toNat + k) = some bytes[k]) → step s = exec i s

/-- A step request outside `Running` has no effect, however often it is made (30_encoding.md R86). -/
def Obligations.StepOutsideRunningHasNoEffect : Prop :=
  ∀ s : State, (s.status = .idle ∨ s.status = .halted ∨ s.status = .faulted) →
    step s = .next s ∧ ∀ k : Nat, run k s = .next s

/-- No instruction and no step ends in a stop of the model: every one answers a next state. This is the model's choice, no
rule's: that the five faults are next states and `Fault` has no constructor is read from 60_exceptions.md R152 and
30_encoding.md R83, R86 (DEDUCED, notes/assumptions/5.md), and that a read of an `unwritten` register goes on, where
10_state.md R24 makes it the model fault `ReadUnwritten`, is notes/assumptions/3.md (DESIGN CHOICE). -/
def Obligations.EveryStepAnswersANextState : Prop :=
  (∀ (i : Instr) (s : State), ∃ t, exec i s = .next t) ∧ (∀ s : State, ∃ t, step s = .next t)

/-- An opcode byte outside `OPCODE_MAP` raises `UnknownOpcode` with the pc and the byte (30_encoding.md R77). -/
def Obligations.UnknownOpcodeFaults : Prop :=
  ∀ (s : State) (op : Byte), s.status = .running → s.mem.read s.pc.toNat = some op →
    s.cfg.opcodeMap.lookupMnemonic op = none → StepFaults (.unknownOpcode (BitVec.ofNat 8 s.pc.toNat) op) s

/-- An operand byte at address 256 raises `AddressOutOfRange(256)`, in both modes (30_encoding.md R84, R85). -/
def Obligations.OperandPastMemoryFaults : Prop :=
  ∀ (s : State) (op : Byte) (m : Mnemonic), s.status = .running → s.mem.read s.pc.toNat = some op →
    s.cfg.opcodeMap.lookupMnemonic op = some m → 256 ≤ s.pc.toNat + s.cfg.operandCount m →
    StepFaults (.addressOutOfRange 256) s

/-- An opcode fetch at an address of 256 or more raises `AddressOutOfRange` of that address (20_memory.md R52,
30_encoding.md R85). That State has a pc past 256, which no run reaches, is the model's choice (notes/assumptions/4.md). -/
def Obligations.OpcodeFetchPastMemoryFaults : Prop :=
  ∀ s : State, s.status = .running → 256 ≤ s.pc.toNat → StepFaults (.addressOutOfRange s.pc) s

/-- In `FAULT_AT_NEXT_FETCH` mode an instruction whose last byte is at 255 leaves the pc at 256 when it completes, and
the next step faults there (30_encoding.md R85). -/
def Obligations.LastByteCompletesThenNextFetchFaults : Prop :=
  ∀ (s t : State) (i : Instr), s.cfg.endOfMemory = .faultAtNextFetch → s.status = .running → fetch s = .instr i →
    i ≠ .hlt → s.pc.toNat + s.cfg.instrLength i.mnemonic = 256 → step s = .next t → t.status ≠ .faulted →
    t.pc.toNat = 256 ∧ StepFaults (.addressOutOfRange 256) t

/-- The two modes of the end of memory differ only for an instruction other than HLT whose last byte is at 255
(30_encoding.md R85): from every other state, a step under either mode gives the same but for the mode. -/
def Obligations.EndOfMemoryModesAgreeElsewhere : Prop :=
  ∀ (s t : State) (mode : EndOfMemoryMode),
    (∀ i, fetch s = .instr i → i = .hlt ∨ s.pc.toNat + s.cfg.instrLength i.mnemonic ≠ 256) →
    step s = .next t → step (withEndOfMemory mode s) = .next (withEndOfMemory mode t)

/-- When several causes apply, a step reports the first in the order of 60_exceptions.md R154; `ProgramTooLarge` never
comes from a step. -/
def Obligations.FaultsAreReportedInOrder : Prop :=
  ∀ (s : State), s.status = .running →
    (∀ t, step s = .next t → t.cause = some .programTooLarge → s.cause = some .programTooLarge) ∧
    ∀ op, s.mem.read s.pc.toNat = some op →
      (s.cfg.opcodeMap.lookupMnemonic op = none →
        StepFaults (.unknownOpcode (BitVec.ofNat 8 s.pc.toNat) op) s) ∧
      ∀ m, s.cfg.opcodeMap.lookupMnemonic op = some m →
        (256 ≤ s.pc.toNat + s.cfg.operandCount m → StepFaults (.addressOutOfRange 256) s) ∧
        (s.pc.toNat + s.cfg.operandCount m < 256 → ∃ i, fetch s = .instr i ∧ i.mnemonic = m ∧
          (∀ b, firstBadRegister i = some b → StepFaults (.registerOutOfRange b) s) ∧
          (firstBadRegister i = none → DividesByZero i s → StepFaults .divisionByZero s) ∧
          (firstBadRegister i = none → ¬ DividesByZero i s → i ≠ .hlt → ¬ Fits (s.cfg.instrLength m) s →
            StepFaults (.addressOutOfRange 256) s))

/-- A step that faults sets `status` and `cause` and does nothing else, and nothing more is executed (60_exceptions.md
R152, R153). -/
def Obligations.FaultsArePrecise : Prop :=
  ∀ s t : State, s.status = .running → step s = .next t → t.status = .faulted →
    ∃ c, FaultEntry c s t ∧ step t = .next t

/-- A step is atomic and never suspends: it faults with nothing else changed, or it completes the instruction it fetched,
with one register or the flags or one output event changed, and the pc advanced or, for HLT, the run halted
(30_encoding.md R83). -/
def Obligations.StepIsAtomic : Prop :=
  ∀ s : State, s.status = .running → ∃ t, step s = .next t ∧
    ((∃ c, FaultEntry c s t) ∨
    (KeepsMemory s t ∧ t.cfg = s.cfg ∧ t.cause = s.cause ∧
      (∃ i, fetch s = .instr i ∧
        ((i = .hlt ∧ t.status = .halted ∧ t.pc = s.pc) ∨
          (i ≠ .hlt ∧ t.status = .running ∧ Advances (s.cfg.instrLength i.mnemonic) s t))) ∧
      ((KeepsRegs s t ∧ t.out = s.out) ∨
        (t.flags = s.flags ∧ t.out = s.out ∧
          ∃ d : RegIdx, ∀ j : RegIdx, j ≠ d → t.reg j = s.reg j ∧ t.isWritten j = s.isWritten j) ∨
        (KeepsRegs s t ∧ t.flags = s.flags ∧ ∃ v, t.out = s.out ++ [v]))))

/-! ### Whole-machine rules -/

/-- Only LDI, INC, DEC, NOT and the two-register ALU instructions but CMP write a register, and only the one their
first operand names (10_state.md R22). -/
def Obligations.RegistersWrittenOnlyByFirstOperand : Prop :=
  ∀ (i : Instr) (s t : State) (d : RegIdx), exec i s = .next t →
    (t.reg d ≠ s.reg d ∨ t.isWritten d ≠ s.isWritten d) →
    i.mnemonic ∈ [.add, .sub, .mul, .div, .mod, .and, .or, .xor, .not, .shl, .shr, .inc, .dec, .ldi] ∧
      ∃ ra, i.regOperands.head? = some ra ∧ ra.toNat = d.val

/-- A register operand byte of 8 or more raises `RegisterOutOfRange` of the first such byte, unmasked, and nothing is
written; an instruction without one raises no such fault (10_state.md R23). -/
def Obligations.RegisterByteOutOfRangeFaults : Prop :=
  ∀ (i : Instr) (s : State),
    (∀ b, firstBadRegister i = some b → ExecFaults i (.registerOutOfRange b) s) ∧
    (firstBadRegister i = none → ∀ t b, exec i s = .next t → t.cause = some (.registerOutOfRange b) →
      s.cause = some (.registerOutOfRange b))

/-- No instruction but CMP changes the flags (10_state.md R25). -/
def Obligations.FlagsChangedOnlyByCmp : Prop :=
  ∀ (i : Instr) (s t : State), exec i s = .next t → t.flags ≠ s.flags → ∃ ra rb, i = .cmp ra rb

/-- No instruction reads the flags: with other flags a step does the same, and it leaves either those flags or the ones
it sets (10_state.md R25). -/
def Obligations.FlagsAreNeverRead : Prop :=
  ∀ (s t : State) (f : Flags), step s = .next t →
    step (s.setFlags f) = .next (t.setFlags f) ∨ step (s.setFlags f) = .next t

/-- A completed PRN step appends the register's value to the end of `out`; every other step, a faulting one among them,
leaves `out` as it is; a load empties it (10_state.md R32). -/
def Obligations.OutputGrowsByPrnAlone : Prop :=
  (∀ s t : State, step s = .next t →
    (∀ (ra : Byte) (r : RegIdx), s.status = .running → fetch s = .instr (.prn ra) → ra.toNat = r.val →
      t.status = .running → t.out = s.out ++ [s.reg r]) ∧
    ((¬ ∃ ra, s.status = .running ∧ fetch s = .instr (.prn ra) ∧ t.status = .running) → t.out = s.out)) ∧
  (∀ (s t : State) (prog : List Byte), load prog s = .next t → t.out = [])

/-- `cause` is there exactly in `Faulted`; a step writes it only by raising a fault and never clears it; a load makes
it agree with the status again (10_state.md R31). -/
def Obligations.CauseIsTheRaisedFault : Prop :=
  ∀ s t : State, s.CauseMatchesStatus →
    (step s = .next t → t.CauseMatchesStatus ∧
      (t.cause = s.cause ∨ (s.status = .running ∧ s.cause = none ∧ t.status = .faulted ∧ t.cause ≠ none))) ∧
    (∀ prog : List Byte, load prog s = .next t → t.CauseMatchesStatus)

/-- Memory and the configuration are constant from the end of a load to the end of the run (20_memory.md R61, R63; that
the configuration is carried in State is notes/assumptions/1.md). -/
def Obligations.RunKeepsMemoryAndConfiguration : Prop :=
  ∀ (k : Nat) (s t : State), run k s = .next t → t.mem = s.mem ∧ t.cfg = s.cfg

/-- Every run ends: from any running state 256 steps reach `Halted` or `Faulted` (70_reset_and_hazards.md R188).
That a read of an `unwritten` register goes on is notes/assumptions/3.md. -/
def Obligations.RunEndsWithin256Steps : Prop :=
  ∀ s : State, s.status = .running → ∃ t, run 256 s = .next t ∧ t.stopped = true

/-- Every step keeps the invariant: canonical memory, the pc within its bounds, a cause exactly in `Faulted`, at most one
flag (10_state.md R25, R27, R28, R31). -/
def Obligations.StepKeepsTheInvariant : Prop :=
  ∀ s t : State, s.Inv → step s = .next t → t.Inv

/-- The reset state meets the invariant. -/
def Obligations.ResetMeetsTheInvariant : Prop := State.reset.Inv

/-- Whatever the state before, a load that is accepted gives a state that meets the invariant. -/
def Obligations.LoadGivesTheInvariant : Prop :=
  ∀ (prog : List Byte) (s t : State), load prog s = .next t → t.Inv

/-- The values the spec does not give for `unwritten` registers (10_state.md R24; 0 in this model, notes/assumptions/3.md)
do not matter: as long as no step reads such a register, two runs from states that agree but for those values end in
states that agree but for those values. -/
def Obligations.UnwrittenValuesDoNotMatter : Prop :=
  ∀ (k : Nat) (s s' : State), s.AgreeOnWritten s' → specDetermined k s = true →
    ∃ t t', run k s = .next t ∧ run k s' = .next t' ∧ t.AgreeOnWritten t'

/-! ### Memory, reset and load -/

/-- `MemRead`: the cell below 256, `AddressOutOfRange` of the address from 256 on; the error is apart from every
data value (20_memory.md R52). -/
def Obligations.MemReadReadsOrReports : Prop :=
  ∀ (s : State) (a : Nat),
    (a ≤ 255 → ∃ v, memRead s a = .ok v ∧ s.mem.read a = some v) ∧
    (256 ≤ a → memRead s a = .error (.addressOutOfRange (BitVec.ofNat 9 a)) ∧ s.mem.read a = none)

/-- `MemWrite`: below 256 it sets that cell and nothing else; from 256 on it reports the address (20_memory.md R53). -/
def Obligations.MemWriteSetsOneCell : Prop :=
  ∀ (s : State) (a : Nat) (v : Byte), s.mem.wf →
    (a ≤ 255 → ∃ t, memWrite s a v = .ok t ∧ t.mem.read a = some v ∧
      (∀ b, b ≠ a → t.mem.read b = s.mem.read b) ∧ KeepsRegs s t ∧ t.flags = s.flags ∧ t.pc = s.pc ∧
      t.out = s.out ∧ KeepsRun s t) ∧
    (256 ≤ a → memWrite s a v = .error (.addressOutOfRange (BitVec.ofNat 9 a)))

/-- Memory holds its 256 bytes and nothing more: two canonical memories that read alike are equal (20_memory.md R50,
R51). -/
def Obligations.EqualReadsAreEqualMemories : Prop :=
  ∀ m m' : Memory, m.wf → m'.wf → (∀ a, a < 256 → m.read a = m'.read a) → m = m'

/-- The state at power-on under every configuration (10_state.md R42); no value is said of an `unwritten` register. -/
def Obligations.PowerOnValues : Prop :=
  ∀ cfg : Config, (State.powerOn cfg).cfg = cfg ∧ LoadResets (State.powerOn cfg) (State.powerOn cfg) ∧
    (State.powerOn cfg).status = .idle ∧ (State.powerOn cfg).cause = none ∧
    ∀ a, a < 256 → (State.powerOn cfg).mem.read a = some 0

/-- The load transaction (70_reset_and_hazards.md R180, R182): from `Idle`, `Halted` or `Faulted` every piece of state is
reset; a program of at most 256 bytes lies at address 0 with zeros after it and the run begins; a longer one writes no
byte and leaves `Faulted` with `ProgramTooLarge`. -/
def Obligations.LoadResetsAndCopies : Prop :=
  ∀ (prog : List Byte) (s : State), (s.status = .idle ∨ s.status = .halted ∨ s.status = .faulted) →
    ∃ t, load prog s = .next t ∧ LoadResets s t ∧
      (prog.length ≤ 256 → t.status = .running ∧ t.cause = none ∧
        ∀ a, a < 256 → t.mem.read a = some (prog.getD a 0)) ∧
      (256 < prog.length → t.status = .faulted ∧ t.cause = some .programTooLarge ∧
        (∀ a, a < 256 → t.mem.read a = some 0) ∧ step t = .next t)

/-- A load requested while `Running` is refused (70_reset_and_hazards.md R183). That it answers the refusal
`loadWhileRunning` and no state is the model's choice (DESIGN CHOICE, notes/assumptions/8.md). -/
def Obligations.LoadWhileRunningIsRefused : Prop :=
  ∀ (prog : List Byte) (s : State), s.status = .running → load prog s = .refused .loadWhileRunning

/-- A fresh load forgets the run before it: what it gives depends on the program and the configuration alone
(70_reset_and_hazards.md R180). For a register whose `REG_INIT` is `unwritten` this rests on the one value the model gives
it (notes/assumptions/3.md). -/
def Obligations.FreshLoadForgetsTheRunBefore : Prop :=
  ∀ (prog : List Byte) (s s' : State), s.status ≠ .running → s'.status ≠ .running → s.cfg = s'.cfg →
    load prog s = load prog s'

/-- A program of no bytes is accepted and its first step raises `UnknownOpcode(0, 0)` where 0 is no opcode
(70_reset_and_hazards.md R181). -/
def Obligations.EmptyProgramFaultsAtItsFirstStep : Prop :=
  ∀ s : State, s.status ≠ .running → s.cfg.opcodeMap.lookupMnemonic 0 = none →
    ∃ t, load [] s = .next t ∧ t.status = .running ∧ StepFaults (.unknownOpcode 0 0) t

/-! ### Instructions -/

/-- ADD, SUB and MUL (40_alu.md R101 to R103): the exact result modulo 256 in the first register.
Of `exec` in every state, whatever its status (notes/assumptions/14.md); that 256 is reported too where the bytes would
lie past memory is notes/assumptions/6.md. -/
def Obligations.AddSubMulWrap : Prop :=
  TwoRegisterRule .add (fun _ a b => (a + b) % 256) ∧
    TwoRegisterRule .sub (fun _ a b => (a + 256 - b) % 256) ∧
    TwoRegisterRule .mul (fun _ a b => (a * b) % 256)

/-- DIV and MOD (40_alu.md R104, R105): unsigned quotient and remainder, `DivisionByZero` for a zero divisor.
Of `exec` in every state, whatever its status (notes/assumptions/14.md); that 256 is reported too where the bytes would
lie past memory is notes/assumptions/6.md. -/
def Obligations.DivModOrDivisionByZero : Prop :=
  DivisionRule .div (fun a b => a / b) ∧ DivisionRule .mod (fun a b => a % b)

/-- INC and DEC (40_alu.md R106, R107): plus or minus one modulo 256, with the length `INCDEC_OPERAND_COUNT` gives.
Of `exec` in every state, whatever its status (notes/assumptions/14.md); that 256 is reported too where the bytes would
lie past memory is notes/assumptions/6.md. -/
def Obligations.IncDecWrap : Prop :=
  OneRegisterRule .inc incDecLength (fun a => (a + 1) % 256) ∧
    OneRegisterRule .dec incDecLength (fun a => (a + 255) % 256)

/-- AND, OR and XOR (40_alu.md R108 to R110), on all eight bits.
Of `exec` in every state, whatever its status (notes/assumptions/14.md); that 256 is reported too where the bytes would
lie past memory is notes/assumptions/6.md. -/
def Obligations.AndOrXorBitwise : Prop :=
  TwoRegisterRule .and (fun _ a b => a &&& b) ∧ TwoRegisterRule .or (fun _ a b => a ||| b) ∧
    TwoRegisterRule .xor (fun _ a b => a ^^^ b)

/-- NOT (40_alu.md R111): `255 - x[ra]`.
Of `exec` in every state, whatever its status (notes/assumptions/14.md); that 256 is reported too where the bytes would
lie past memory is notes/assumptions/6.md. -/
def Obligations.NotComplements : Prop := OneRegisterRule .not (fun _ => 2) (fun a => 255 - a)

/-- SHL and SHR (40_alu.md R112 to R114): logical shifts by `shamt` of the second register, in both modes.
Of `exec` in every state, whatever its status (notes/assumptions/14.md); that 256 is reported too where the bytes would
lie past memory is notes/assumptions/6.md. -/
def Obligations.ShiftsAreLogical : Prop :=
  TwoRegisterRule .shl (fun mode a b => a * 2 ^ shamt mode b % 256) ∧
    TwoRegisterRule .shr (fun mode a b => a / 2 ^ shamt mode b)

/-- CMP (40_alu.md R115): the three flags of the unsigned comparison, and nothing else but the pc.
Of `exec` in every state, whatever its status (notes/assumptions/14.md); that 256 is reported too where the bytes would
lie past memory is notes/assumptions/6.md. -/
def Obligations.CmpSetsTheFlags : Prop :=
  ∀ (s : State) (ra rb : Byte), ChecksTwo .cmp s ra rb ∧
    ∀ i j : RegIdx, ra.toNat = i.val → rb.toNat = j.val →
      (Fits 3 s → ∃ t, exec (.cmp ra rb) s = .next t ∧
        FlagsResult ((s.reg i).toNat < (s.reg j).toNat) ((s.reg j).toNat < (s.reg i).toNat)
          ((s.reg i).toNat = (s.reg j).toNat) 3 s t) ∧
      (¬ Fits 3 s → ExecFaults (.cmp ra rb) (.addressOutOfRange 256) s)

/-- LDI (41_ldi_prn_hlt.md R140): the immediate in the register, which is not read.
Of `exec` in every state, whatever its status (notes/assumptions/14.md); that 256 is reported too where the bytes would
lie past memory is notes/assumptions/6.md. -/
def Obligations.LdiWritesTheImmediate : Prop :=
  ∀ (s : State) (ra imm : Byte), (8 ≤ ra.toNat → ExecFaults (.ldi ra imm) (.registerOutOfRange ra) s) ∧
    ∀ i : RegIdx, ra.toNat = i.val →
      (Fits 3 s → ∃ t, exec (.ldi ra imm) s = .next t ∧ RegResult i imm.toNat 3 s t) ∧
      (¬ Fits 3 s → ExecFaults (.ldi ra imm) (.addressOutOfRange 256) s)

/-- PRN (41_ldi_prn_hlt.md R141): one output event with the register's value.
Of `exec` in every state, whatever its status (notes/assumptions/14.md); that 256 is reported too where the bytes would
lie past memory is notes/assumptions/6.md. -/
def Obligations.PrnEmitsTheRegister : Prop :=
  ∀ (s : State) (ra : Byte), (8 ≤ ra.toNat → ExecFaults (.prn ra) (.registerOutOfRange ra) s) ∧
    ∀ i : RegIdx, ra.toNat = i.val →
      (Fits 2 s → ∃ t, exec (.prn ra) s = .next t ∧ EmitResult (s.reg i) 2 s t) ∧
      (¬ Fits 2 s → ExecFaults (.prn ra) (.addressOutOfRange 256) s)

/-- HLT (41_ldi_prn_hlt.md R143): `status` becomes `Halted`, at any pc, and nothing else changes; no further step has an
effect. -/
def Obligations.HltHaltsInPlace : Prop :=
  ∀ s : State, ∃ t, exec .hlt s = .next t ∧ t.status = .halted ∧ t.pc = s.pc ∧ KeepsRegs s t ∧ t.flags = s.flags ∧
    KeepsMemory s t ∧ t.out = s.out ∧ t.cause = s.cause ∧ t.cfg = s.cfg ∧ step t = .next t

/-- LDI then PRN of the same register emits the immediate (41_ldi_prn_hlt.md R141; 95_test_vectors.md W1). -/
def Obligations.LdiThenPrnEmitsTheImmediate : Prop :=
  ∀ (s : State) (ra v : Byte), ra.toNat < 8 → s.pc.toNat + 5 < 256 →
    ∃ t u, exec (.ldi ra v) s = .next t ∧ exec (.prn ra) t = .next u ∧ u.out = s.out ++ [v]

/-- The integer laws of the ALU for all words (40_alu.md R116): sums, differences and products modulo 256, unsigned
quotient and remainder or `div_zero`, the bitwise operations on every bit, logical shifts by the amount of R112, and the
unsigned comparison, which alone drives flags. -/
def Obligations.AluIntegerLaws : Prop :=
  ∀ (mode : ShiftAmountMode) (a b : Word),
    aluApply mode .add a b = .result (BitVec.ofNat 8 (a.toNat + b.toNat)) ∧
    aluApply mode .sub a b = .result (BitVec.ofInt 8 ((a.toNat : Int) - (b.toNat : Int))) ∧
    aluApply mode .mul a b = .result (BitVec.ofNat 8 (a.toNat * b.toNat)) ∧
    aluApply mode .inc a b = .result (BitVec.ofNat 8 (a.toNat + 1)) ∧
    aluApply mode .dec a b = .result (BitVec.ofInt 8 ((a.toNat : Int) - 1)) ∧
    (b.toNat = 0 → aluApply mode .div a b = .divZero ∧ aluApply mode .mod a b = .divZero) ∧
    (b.toNat ≠ 0 → ∃ q r : Word, aluApply mode .div a b = .result q ∧ aluApply mode .mod a b = .result r ∧
      q.toNat * b.toNat + r.toNat = a.toNat ∧ r.toNat < b.toNat) ∧
    (∃ u v w n : Word, aluApply mode .and a b = .result u ∧ aluApply mode .or a b = .result v ∧
      aluApply mode .xor a b = .result w ∧ aluApply mode .not a b = .result n ∧
      ∀ k, k < 8 → u.getLsbD k = (a.getLsbD k && b.getLsbD k) ∧ v.getLsbD k = (a.getLsbD k || b.getLsbD k) ∧
        w.getLsbD k = (a.getLsbD k != b.getLsbD k) ∧ n.getLsbD k = !a.getLsbD k) ∧
    aluApply mode .shl a b = .result (BitVec.ofNat 8 (a.toNat * 2 ^ shamt mode b.toNat)) ∧
    aluApply mode .shr a b = .result (BitVec.ofNat 8 (a.toNat / 2 ^ shamt mode b.toNat)) ∧
    aluApply mode .cmp a b =
      .flags ⟨decide (a.toNat < b.toNat), decide (b.toNat < a.toNat), decide (a.toNat = b.toNat)⟩

/-- The shift amount (40_alu.md R112): `b mod 8` in `MOD_WIDTH`, so 8 shifts by 0 and 9 by 1; `b` in `FULL`, so 8 or more
gives 0; the modes agree for `b` in 0..7. -/
def Obligations.ShiftAmountModes : Prop :=
  ∀ a b : Word,
    shiftAmount .modWidth b = b.toNat % 8 ∧ shiftAmount .full b = b.toNat ∧
    (8 ≤ b.toNat → aluApply .full .shl a b = .result 0 ∧ aluApply .full .shr a b = .result 0) ∧
    (b.toNat < 8 → aluApply .modWidth .shl a b = aluApply .full .shl a b ∧
      aluApply .modWidth .shr a b = aluApply .full .shr a b)

/-! ### What the host reads -/

/-- The codes of the status (10_state.md R29) and of the fault causes (60_exceptions.md R151), and the predicate
`stopped` (R30). -/
def Obligations.HostCodes : Prop :=
  (Status.idle.code = 0 ∧ Status.running.code = 1 ∧ Status.halted.code = 2 ∧ Status.faulted.code = 3) ∧
    (∀ a b i n, Cause.code (.unknownOpcode a b) = 1 ∧ Cause.code (.addressOutOfRange n) = 2 ∧
      Cause.code (.registerOutOfRange i) = 3 ∧ Cause.code .divisionByZero = 4 ∧ Cause.code .programTooLarge = 5) ∧
    ∀ s : State, s.stopped = true ↔ (s.status = .halted ∨ s.status = .faulted)

/-- The flags read as a byte are `0b00000LGE` (10_state.md R26; the packing is the spec's general knowledge, G3,
notes/assumptions/10.md). -/
def Obligations.FlagsByteIsLGE : Prop :=
  ∀ f : Flags, f.toByte.getLsbD 2 = f.l ∧ f.toByte.getLsbD 1 = f.g ∧ f.toByte.getLsbD 0 = f.e ∧
    ∀ k, 3 ≤ k → f.toByte.getLsbD k = false
end

