-- ==== Sys2Proof/Laws/State.lean ====
section
/-! SUPPORT. One lemma per field per update of State, and what the accessors read after an update, so that no
proof unfolds a record update. -/

namespace Sys2Proof.Machine

@[simp] theorem State.setReg_cfg (s : State) (i : RegIdx) (v : Word) : (s.setReg i v).cfg = s.cfg := rfl
@[simp] theorem State.setReg_mem (s : State) (i : RegIdx) (v : Word) : (s.setReg i v).mem = s.mem := rfl
@[simp] theorem State.setReg_regs (s : State) (i : RegIdx) (v : Word) : (s.setReg i v).regs = s.regs.set i v := rfl
@[simp] theorem State.setReg_written (s : State) (i : RegIdx) (v : Word) : (s.setReg i v).written = s.written.set i true := rfl
@[simp] theorem State.setReg_flags (s : State) (i : RegIdx) (v : Word) : (s.setReg i v).flags = s.flags := rfl
@[simp] theorem State.setReg_pc (s : State) (i : RegIdx) (v : Word) : (s.setReg i v).pc = s.pc := rfl
@[simp] theorem State.setReg_status (s : State) (i : RegIdx) (v : Word) : (s.setReg i v).status = s.status := rfl
@[simp] theorem State.setReg_cause (s : State) (i : RegIdx) (v : Word) : (s.setReg i v).cause = s.cause := rfl
@[simp] theorem State.setReg_out (s : State) (i : RegIdx) (v : Word) : (s.setReg i v).out = s.out := rfl

@[simp] theorem State.setFlags_cfg (s : State) (f : Flags) : (s.setFlags f).cfg = s.cfg := rfl
@[simp] theorem State.setFlags_mem (s : State) (f : Flags) : (s.setFlags f).mem = s.mem := rfl
@[simp] theorem State.setFlags_regs (s : State) (f : Flags) : (s.setFlags f).regs = s.regs := rfl
@[simp] theorem State.setFlags_written (s : State) (f : Flags) : (s.setFlags f).written = s.written := rfl
@[simp] theorem State.setFlags_flags (s : State) (f : Flags) : (s.setFlags f).flags = f := rfl
@[simp] theorem State.setFlags_pc (s : State) (f : Flags) : (s.setFlags f).pc = s.pc := rfl
@[simp] theorem State.setFlags_status (s : State) (f : Flags) : (s.setFlags f).status = s.status := rfl
@[simp] theorem State.setFlags_cause (s : State) (f : Flags) : (s.setFlags f).cause = s.cause := rfl
@[simp] theorem State.setFlags_out (s : State) (f : Flags) : (s.setFlags f).out = s.out := rfl
@[simp] theorem State.setFlags_reg (s : State) (f : Flags) (j : RegIdx) : (s.setFlags f).reg j = s.reg j := rfl
@[simp] theorem State.setFlags_isWritten (s : State) (f : Flags) (j : RegIdx) : (s.setFlags f).isWritten j = s.isWritten j := rfl

@[simp] theorem State.emit_cfg (s : State) (v : Word) : (s.emit v).cfg = s.cfg := rfl
@[simp] theorem State.emit_mem (s : State) (v : Word) : (s.emit v).mem = s.mem := rfl
@[simp] theorem State.emit_regs (s : State) (v : Word) : (s.emit v).regs = s.regs := rfl
@[simp] theorem State.emit_written (s : State) (v : Word) : (s.emit v).written = s.written := rfl
@[simp] theorem State.emit_flags (s : State) (v : Word) : (s.emit v).flags = s.flags := rfl
@[simp] theorem State.emit_pc (s : State) (v : Word) : (s.emit v).pc = s.pc := rfl
@[simp] theorem State.emit_status (s : State) (v : Word) : (s.emit v).status = s.status := rfl
@[simp] theorem State.emit_cause (s : State) (v : Word) : (s.emit v).cause = s.cause := rfl
@[simp] theorem State.emit_out (s : State) (v : Word) : (s.emit v).out = s.out ++ [v] := rfl
@[simp] theorem State.emit_reg (s : State) (v : Word) (j : RegIdx) : (s.emit v).reg j = s.reg j := rfl
@[simp] theorem State.emit_isWritten (s : State) (v : Word) (j : RegIdx) : (s.emit v).isWritten j = s.isWritten j := rfl

@[simp] theorem State.setPc_cfg (s : State) (n : Nat) : (s.setPc n).cfg = s.cfg := rfl
@[simp] theorem State.setPc_mem (s : State) (n : Nat) : (s.setPc n).mem = s.mem := rfl
@[simp] theorem State.setPc_regs (s : State) (n : Nat) : (s.setPc n).regs = s.regs := rfl
@[simp] theorem State.setPc_written (s : State) (n : Nat) : (s.setPc n).written = s.written := rfl
@[simp] theorem State.setPc_flags (s : State) (n : Nat) : (s.setPc n).flags = s.flags := rfl
@[simp] theorem State.setPc_pc (s : State) (n : Nat) : (s.setPc n).pc = BitVec.ofNat 9 n := rfl
@[simp] theorem State.setPc_status (s : State) (n : Nat) : (s.setPc n).status = s.status := rfl
@[simp] theorem State.setPc_cause (s : State) (n : Nat) : (s.setPc n).cause = s.cause := rfl
@[simp] theorem State.setPc_out (s : State) (n : Nat) : (s.setPc n).out = s.out := rfl
@[simp] theorem State.setPc_reg (s : State) (n : Nat) (j : RegIdx) : (s.setPc n).reg j = s.reg j := rfl
@[simp] theorem State.setPc_isWritten (s : State) (n : Nat) (j : RegIdx) : (s.setPc n).isWritten j = s.isWritten j := rfl

@[simp] theorem State.halt_cfg (s : State) : s.halt.cfg = s.cfg := rfl
@[simp] theorem State.halt_mem (s : State) : s.halt.mem = s.mem := rfl
@[simp] theorem State.halt_regs (s : State) : s.halt.regs = s.regs := rfl
@[simp] theorem State.halt_written (s : State) : s.halt.written = s.written := rfl
@[simp] theorem State.halt_flags (s : State) : s.halt.flags = s.flags := rfl
@[simp] theorem State.halt_pc (s : State) : s.halt.pc = s.pc := rfl
@[simp] theorem State.halt_status (s : State) : s.halt.status = .halted := rfl
@[simp] theorem State.halt_cause (s : State) : s.halt.cause = s.cause := rfl
@[simp] theorem State.halt_out (s : State) : s.halt.out = s.out := rfl
@[simp] theorem State.halt_reg (s : State) (j : RegIdx) : s.halt.reg j = s.reg j := rfl
@[simp] theorem State.halt_isWritten (s : State) (j : RegIdx) : s.halt.isWritten j = s.isWritten j := rfl

@[simp] theorem raise_cfg (s : State) (c : Cause) : (raise c s).cfg = s.cfg := rfl
@[simp] theorem raise_mem (s : State) (c : Cause) : (raise c s).mem = s.mem := rfl
@[simp] theorem raise_regs (s : State) (c : Cause) : (raise c s).regs = s.regs := rfl
@[simp] theorem raise_written (s : State) (c : Cause) : (raise c s).written = s.written := rfl
@[simp] theorem raise_flags (s : State) (c : Cause) : (raise c s).flags = s.flags := rfl
@[simp] theorem raise_pc (s : State) (c : Cause) : (raise c s).pc = s.pc := rfl
@[simp] theorem raise_status (s : State) (c : Cause) : (raise c s).status = .faulted := rfl
@[simp] theorem raise_cause (s : State) (c : Cause) : (raise c s).cause = some c := rfl
@[simp] theorem raise_out (s : State) (c : Cause) : (raise c s).out = s.out := rfl
@[simp] theorem raise_reg (s : State) (c : Cause) (j : RegIdx) : (raise c s).reg j = s.reg j := rfl
@[simp] theorem raise_isWritten (s : State) (c : Cause) (j : RegIdx) : (raise c s).isWritten j = s.isWritten j := rfl

/-- Reading a register after a register write. -/
@[simp] theorem State.setReg_reg (s : State) (i : RegIdx) (v : Word) (j : RegIdx) :
    (s.setReg i v).reg j = if i = j then v else s.reg j := by
  simp [State.reg, State.setReg, Vector.getElem_set, Fin.ext_iff]

/-- The written marks after a register write. -/
@[simp] theorem State.setReg_isWritten (s : State) (i : RegIdx) (v : Word) (j : RegIdx) :
    (s.setReg i v).isWritten j = if i = j then true else s.isWritten j := by
  simp [State.isWritten, State.setReg, Vector.getElem_set, Fin.ext_iff]

/-- Two states are equal when their fields are, the registers and marks read one by one. -/
theorem State.ext_fields {s t : State} (hc : s.cfg = t.cfg) (hm : s.mem = t.mem)
    (hr : ∀ i, s.reg i = t.reg i) (hw : ∀ i, s.isWritten i = t.isWritten i) (hf : s.flags = t.flags)
    (hp : s.pc = t.pc) (hs : s.status = t.status) (hx : s.cause = t.cause) (ho : s.out = t.out) : s = t := by
  have hr' : s.regs = t.regs := Vector.ext fun i hi => hr ⟨i, hi⟩
  have hw' : s.written = t.written := Vector.ext fun i hi => hw ⟨i, hi⟩
  cases s
  cases t
  simp_all

/-- `stopped` is being in one of the two terminal states (10_state.md R30). -/
theorem State.stopped_iff (s : State) : s.stopped = true ↔ s.status = .halted ∨ s.status = .faulted := by
  unfold State.stopped
  cases s.status <;> simp

end Sys2Proof.Machine
end

