-- ==== Sys2Proof/Laws/Memory.lean ====
section
/-! SUPPORT. The laws of memory: a read after a write, every other address unchanged, and that each memory
operation keeps the canonical form. -/

namespace Sys2Proof.Machine

/-- All addresses of a cell list lie above a bound. -/
abbrev Memory.above (n : Nat) (m : Memory) : Prop := ∀ c ∈ m, n < c.1

theorem Memory.get_of_not_listed {m : Memory} {a : Nat} (h : ∀ c ∈ m, c.1 ≠ a) : m.get a = 0 := by
  induction m with
  | nil => rfl
  | cons c rest ih =>
    obtain ⟨b, v⟩ := c
    have hb : b ≠ a := h (b, v) (by simp)
    simp only [Memory.get, hb, if_false]
    exact ih fun c hc => h c (by simp [hc])

theorem Memory.get_of_above {m : Memory} {n a : Nat} (h : m.above n) (ha : a ≤ n) : m.get a = 0 :=
  Memory.get_of_not_listed fun c hc => by have := h c hc; omega

theorem Memory.wf_tail {c : Host.Cell} {m : Memory} (h : Memory.wf (c :: m)) : m.wf :=
  ⟨(List.pairwise_cons.mp h.1).2, fun d hd => h.2 d (by simp [hd])⟩

theorem Memory.wf_head {c : Host.Cell} {m : Memory} (h : Memory.wf (c :: m)) : m.above c.1 :=
  fun d hd => (List.pairwise_cons.mp h.1).1 d hd

theorem Memory.wf_cons {b : Nat} {v : Byte} {m : Memory} (hm : m.wf) (ha : m.above b) (hb : b < memSize)
    (hv : v ≠ 0) : Memory.wf ((b, v) :: m) :=
  ⟨List.pairwise_cons.mpr ⟨fun d hd => ha d hd, hm.1⟩, fun d hd => by
    rcases List.mem_cons.mp hd with rfl | hd
    · exact ⟨hb, hv⟩
    · exact hm.2 d hd⟩

/-- What a read gives after a put into a canonical memory. -/
theorem Memory.get_put {m : Memory} (hm : m.wf) (a : Nat) (v : Byte) (b : Nat) :
    (m.put a v).get b = if b = a then v else m.get b := by
  induction m with
  | nil =>
    unfold Memory.put
    split
    · subst v
      simp [Memory.get]
    · simp [Memory.get, eq_comm]
  | cons c rest ih =>
    obtain ⟨d, w⟩ := c
    have hab := Memory.wf_head hm
    have ih := ih (Memory.wf_tail hm)
    unfold Memory.put
    by_cases h1 : a < d
    · have hz : d ≠ a := by omega
      have hna : Memory.get rest a = 0 := Memory.get_of_above hab (Nat.le_of_lt h1)
      by_cases hv : v = 0
      · simp only [h1, hv, if_true, Memory.get]
        by_cases hb : b = a
        · subst hb; simp [hz, hna]
        · simp [hb]
      · simp only [h1, hv, if_true, if_false, Memory.get]
        by_cases hb : b = a
        · subst hb; simp
        · simp [hb, Ne.symm hb]
    · by_cases h2 : a = d
      · subst h2
        have hna : Memory.get rest a = 0 := Memory.get_of_above hab (Nat.le_refl _)
        by_cases hv : v = 0
        · simp only [h1, hv, if_true, if_false, Memory.get]
          by_cases hb : b = a
          · subst hb; simp [hna]
          · simp [hb, Ne.symm hb]
        · simp only [h1, hv, if_true, if_false, Memory.get]
          by_cases hb : b = a
          · subst hb; simp
          · simp [hb, Ne.symm hb]
      · simp only [h1, h2, if_false, Memory.get, ih]
        by_cases hb : b = a
        · subst hb; simp [Ne.symm h2]
        · simp [hb]

theorem Memory.put_above {m : Memory} {n a : Nat} {v : Byte} (h : m.above n) (ha : n < a) :
    Memory.above n (m.put a v) := by
  induction m with
  | nil =>
    intro c hc
    unfold Memory.put at hc
    split at hc
    · exact absurd hc (List.not_mem_nil)
    · obtain rfl := List.mem_singleton.mp hc
      exact ha
  | cons c rest ih =>
    obtain ⟨d, w⟩ := c
    have hd : n < d := h (d, w) (by simp)
    have hr : Memory.above n rest := fun c hc => h c (by simp [hc])
    intro c hc
    unfold Memory.put at hc
    split at hc
    · split at hc
      · exact h c hc
      · rcases List.mem_cons.mp hc with rfl | hc
        · exact ha
        · exact h c hc
    · split at hc
      · split at hc
        · exact hr c hc
        · rcases List.mem_cons.mp hc with rfl | hc
          · exact ha
          · exact hr c hc
      · rcases List.mem_cons.mp hc with rfl | hc
        · exact hd
        · exact ih hr c hc

/-- A put keeps the canonical form. -/
theorem Memory.put_wf {m : Memory} (hm : m.wf) {a : Nat} (ha : a < memSize) (v : Byte) : (m.put a v).wf := by
  induction m with
  | nil =>
    unfold Memory.put
    split
    · exact hm
    · exact Memory.wf_cons hm (fun c hc => absurd hc List.not_mem_nil) ha ‹_›
  | cons c rest ih =>
    obtain ⟨d, w⟩ := c
    have hab := Memory.wf_head hm
    have ht := Memory.wf_tail hm
    have hd := hm.2 (d, w) (by simp)
    unfold Memory.put
    split
    · split
      · exact hm
      · refine Memory.wf_cons hm (fun c hc => ?_) ha ‹_›
        rcases List.mem_cons.mp hc with rfl | hc
        · assumption
        · exact Nat.lt_trans ‹_› (hab c hc)
    · split
      · split
        · exact ht
        · exact Memory.wf_cons ht (fun c hc => by have := hab c hc; omega) ha ‹_›
      · exact Memory.wf_cons (ih ht) (Memory.put_above hab (by show d < a; omega)) hd.1 hd.2

/-- The read port below 256. -/
theorem Memory.read_of_lt {m : Memory} {a : Nat} (h : a < memSize) : m.read a = some (m.get a) := by
  simp only [Memory.read, h, if_true]

/-- The read port from 256 on. -/
theorem Memory.read_of_ge {m : Memory} {a : Nat} (h : memSize ≤ a) : m.read a = none := by
  simp only [Memory.read, Nat.not_lt.mpr h, if_false]

/-- A readable address is below 256. -/
theorem Memory.lt_of_read {m : Memory} {a : Nat} {v : Byte} (h : m.read a = some v) : a < memSize := by
  by_contra hn
  simp [Memory.read_of_ge (Nat.not_lt.mp hn)] at h

/-- The write port keeps the canonical form. -/
theorem Memory.write_wf {m m' : Memory} {a : Nat} {v : Byte} (hm : m.wf) (h : m.write a v = some m') : m'.wf := by
  unfold Memory.write at h
  split at h
  · cases h; exact Memory.put_wf hm ‹_› v
  · cases h

/-- A read after a write: the written byte there, every other address as before. -/
theorem Memory.read_write {m m' : Memory} {a : Nat} {v : Byte} (hm : m.wf) (h : m.write a v = some m') (b : Nat) :
    m'.read b = if b = a then some v else m.read b := by
  unfold Memory.write at h
  split at h
  · cases h
    rename_i ha
    by_cases hb : b < memSize
    · simp only [Memory.read_of_lt hb, Memory.get_put hm]
      split <;> rfl
    · simp only [Memory.read_of_ge (Nat.not_lt.mp hb)]
      split
      · omega
      · rfl
  · cases h

/-- Reset memory is in canonical form. -/
theorem Memory.wf_nil : Memory.wf [] := by simp [Memory.wf]

end Sys2Proof.Machine
end

