-- ==== Sys2Proof/Laws/Ops.lean ====
section
/-! SUPPORT. One lemma for each shared operation that says everything it can do. -/

namespace Sys2Proof.Machine

theorem memRead_of_lt {s : State} {a : Nat} (h : a < memSize) : memRead s a = .ok (s.mem.get a) := by
  simp only [memRead, Memory.read_of_lt h]

theorem memRead_of_ge {s : State} {a : Nat} (h : memSize ≤ a) :
    memRead s a = .error (.addressOutOfRange (BitVec.ofNat 9 a)) := by
  simp only [memRead, Memory.read_of_ge h]

/-- A successful `MemWrite` changes memory only, and there as the write port says. -/
theorem memWrite_ok {s s' : State} {a : Nat} {v : Byte} (h : memWrite s a v = .ok s') :
    ∃ m, s.mem.write a v = some m ∧ s' = { s with mem := m } := by
  unfold memWrite at h
  split at h
  · exact ⟨_, ‹_›, by cases h; rfl⟩
  · cases h

theorem memWrite_of_lt {s : State} {a : Nat} (h : a < memSize) (v : Byte) :
    memWrite s a v = .ok { s with mem := s.mem.put a v } := by
  simp only [memWrite, Memory.write, h, if_true]

/-- Writing bytes that end inside memory succeeds, changes memory only, keeps it canonical, and puts each byte at
its place. -/
theorem memWriteAll_spec (prog : List Byte) :
    ∀ (s : State) (a : Nat), s.mem.wf → a + prog.length ≤ memSize →
      ∃ m, memWriteAll s a prog = .ok { s with mem := m } ∧ Memory.wf m ∧
        ∀ b, m.read b = if a ≤ b ∧ b < a + prog.length then some (prog.getD (b - a) 0) else s.mem.read b := by
  induction prog with
  | nil =>
    intro s a hw _
    exact ⟨s.mem, rfl, hw, fun b => by rw [if_neg]; simp⟩
  | cons v rest ih =>
    intro s a hw hlen
    simp only [List.length_cons] at hlen
    have ha : a < memSize := by omega
    have hput : s.mem.write a v = some (s.mem.put a v) := by simp only [Memory.write, ha, if_true]
    obtain ⟨m, hm, hmw, hread⟩ := ih { s with mem := s.mem.put a v } (a + 1) (Memory.put_wf hw ha v) (by omega)
    refine ⟨m, ?_, hmw, fun b => ?_⟩
    · simp only [memWriteAll, memWrite_of_lt ha, hm]
    · rw [hread b, Memory.read_write hw hput b]
      simp only [List.length_cons]
      by_cases hb : b = a
      · subst hb
        rw [if_neg (by omega), if_pos rfl, if_pos (by omega)]
        simp
      · by_cases h1 : a + 1 ≤ b ∧ b < a + 1 + rest.length
        · rw [if_pos h1, if_pos (by omega)]
          obtain ⟨k, rfl⟩ : ∃ k, b = a + 1 + k := ⟨b - (a + 1), by omega⟩
          rw [show a + 1 + k - (a + 1) = k by omega, show a + 1 + k - a = k + 1 by omega]
          simp
        · rw [if_neg h1, if_neg hb, if_neg (by omega)]

/-- A register operand byte in range. -/
theorem withReg_of_lt {b : Byte} {s : State} {use : RegIdx → State} (h : b.toNat < 8) :
    withReg b s use = use ⟨b.toNat, h⟩ := by
  simp only [withReg, h, dite_true]

/-- A register operand byte out of range. -/
theorem withReg_of_ge {b : Byte} {s : State} {use : RegIdx → State} (h : 8 ≤ b.toNat) :
    withReg b s use = raise (.registerOutOfRange b) s := by
  simp only [withReg, Nat.not_lt.mpr h, dite_false]

/-- Completion: past the last pc it faults, else it commits and advances. -/
theorem complete_cases (m : Mnemonic) (e : Effect) (s : State) :
    (lastPc s.cfg.endOfMemory < s.pc.toNat + s.cfg.instrLength m ∧
      complete m e s = raise (.addressOutOfRange 256) s) ∨
    (s.pc.toNat + s.cfg.instrLength m ≤ lastPc s.cfg.endOfMemory ∧
      complete m e s = (commit e s).setPc (s.pc.toNat + s.cfg.instrLength m)) := by
  unfold complete
  by_cases h : lastPc s.cfg.endOfMemory < s.pc.toNat + s.cfg.instrLength m
  · exact .inl ⟨h, by simp [h]⟩
  · exact .inr ⟨Nat.not_lt.mp h, by simp [h]⟩

theorem lastPc_le (mode : EndOfMemoryMode) : lastPc mode ≤ 256 := by
  cases mode <;> decide

theorem lastPc_ge (mode : EndOfMemoryMode) : 255 ≤ lastPc mode := by
  cases mode <;> decide

/-- A commit keeps everything a step may not touch. -/
theorem commit_keeps (e : Effect) (s : State) :
    (commit e s).cfg = s.cfg ∧ (commit e s).mem = s.mem ∧ (commit e s).pc = s.pc ∧
      (commit e s).status = s.status ∧ (commit e s).cause = s.cause := by
  cases e <;> simp [commit]

@[simp] theorem commit_cfg (e : Effect) (s : State) : (commit e s).cfg = s.cfg := (commit_keeps e s).1
@[simp] theorem commit_mem (e : Effect) (s : State) : (commit e s).mem = s.mem := (commit_keeps e s).2.1
@[simp] theorem commit_pc (e : Effect) (s : State) : (commit e s).pc = s.pc := (commit_keeps e s).2.2.1
@[simp] theorem commit_status (e : Effect) (s : State) : (commit e s).status = s.status := (commit_keeps e s).2.2.2.1
@[simp] theorem commit_cause (e : Effect) (s : State) : (commit e s).cause = s.cause := (commit_keeps e s).2.2.2.2

/-- A pc that completion may leave fits in nine bits. -/
theorem toNat_ofNat_pc {n : Nat} (h : n ≤ 256) : (BitVec.ofNat 9 n).toNat = n := by
  simp only [BitVec.toNat_ofNat]; omega

/-- A load that is not refused answers the fresh state. -/
theorem load_of_not_running {prog : List Byte} {s : State} (h : s.status ≠ .running) :
    load prog s = .next (loadFresh s.cfg prog) := by
  unfold load
  cases hs : s.status <;> simp_all

@[simp] theorem powerOn_mem_wf (cfg : Config) : (State.powerOn cfg).mem.wf := Memory.wf_nil

/-- A fresh load of a program that fits: the power-on state with the program in memory, running. -/
theorem loadFresh_fits (cfg : Config) {prog : List Byte} (h : prog.length ≤ memSize) :
    ∃ m, loadFresh cfg prog = { State.powerOn cfg with mem := m, status := .running } ∧ Memory.wf m ∧
      ∀ b, m.read b = if b < memSize then some (prog.getD b 0) else none := by
  obtain ⟨m, hm, hw, hr⟩ := memWriteAll_spec prog (State.powerOn cfg) 0 (powerOn_mem_wf cfg) (by omega)
  refine ⟨m, ?_, hw, fun b => ?_⟩
  · simp [loadFresh, Nat.not_lt.mpr h, hm]
  · rw [hr b]
    by_cases hb : b < prog.length
    · rw [if_pos (by omega), if_pos (by omega)]; rfl
    · rw [if_neg (by omega)]
      have : (State.powerOn cfg).mem.read b = if b < memSize then some 0 else none := rfl
      rw [this, List.getD_eq_default _ _ (Nat.not_lt.mp hb)]

/-- A fresh load of a program that does not fit. -/
theorem loadFresh_too_large (cfg : Config) {prog : List Byte} (h : memSize < prog.length) :
    loadFresh cfg prog = raise .programTooLarge (State.powerOn cfg) := by
  simp [loadFresh, h]

end Sys2Proof.Machine
end

