-- ==== Sys2Proof/Laws/Alu.lean ====
section
/-! SUPPORT. What the ALU computes, as integers, and everything an ALU instruction can do. -/

namespace Sys2Proof.Machine

/-- SUB as the difference taken in the integers and then reduced (40_alu.md R102). -/
theorem toNat_sub_word (a b : Word) : (a - b).toNat = (a.toNat + 256 - b.toNat) % 256 := by
  rw [BitVec.toNat_sub]; have := b.isLt; have := a.isLt; omega

/-- SHL as multiplication by a power of two, reduced (40_alu.md R113). -/
theorem toNat_shl_word (a : Word) (n : Nat) : (a <<< n).toNat = a.toNat * 2 ^ n % 256 := by
  rw [BitVec.toNat_shiftLeft, Nat.shiftLeft_eq]

/-- SHR as division by a power of two (40_alu.md R114). -/
theorem toNat_shr_word (a : Word) (n : Nat) : (a >>> n).toNat = a.toNat / 2 ^ n := by
  rw [BitVec.toNat_ushiftRight, Nat.shiftRight_eq_div_pow]

/-- NOT as the distance from 255 (40_alu.md R111). -/
theorem toNat_not_word (a : Word) : (~~~a).toNat = 255 - a.toNat := by
  rw [BitVec.toNat_not]

/-- The ALU signals `div_zero` exactly for DIV and MOD with a zero divisor (10_state.md R35). -/
theorem aluApply_divZero_iff (mode : ShiftAmountMode) (op : AluOp) (a b : Word) :
    aluApply mode op a b = .divZero ↔ (op = .div ∨ op = .mod) ∧ b = 0 := by
  cases op <;> simp [aluApply]

/-- The ALU drives flags exactly for CMP (10_state.md R35). -/
theorem aluApply_flags_iff (mode : ShiftAmountMode) (op : AluOp) (a b : Word) (f : Flags) :
    aluApply mode op a b = .flags f ↔ op = .cmp ∧ f = compareFlags a b := by
  have hf : ∀ (p : Prop) [Decidable p] (v : Word), (if p then AluOut.divZero else .result v) ≠ .flags f := by
    intro p _ v
    split <;> simp
  cases op <;> simp [aluApply, hf]
  exact eq_comm

/-- CMP sets exactly one flag (40_alu.md R115). -/
theorem compareFlags_exactly_one (a b : Word) :
    (compareFlags a b).l.toNat + (compareFlags a b).g.toNat + (compareFlags a b).e.toNat = 1 := by
  rcases Nat.lt_trichotomy a.toNat b.toNat with h | h | h
  · have h1 : ¬ b.toNat < a.toNat := by omega
    have h2 : ¬ a.toNat = b.toNat := by omega
    simp [compareFlags, h, h1, h2]
  · have h1 : ¬ b.toNat < a.toNat := by omega
    have h2 : ¬ a.toNat < b.toNat := by omega
    simp [compareFlags, h]
  · have h1 : ¬ a.toNat < b.toNat := by omega
    have h2 : ¬ a.toNat = b.toNat := by omega
    simp [compareFlags, h, h1, h2]

/-- How an ALU instruction ends once its operands are read: a division fault, or completion. -/
theorem aluFinish_cases (op : AluOp) (d : RegIdx) (a b : Word) (s : State) :
    aluFinish op d a b s = raise .divisionByZero s ∨
    (op ≠ .cmp ∧ ∃ v, aluFinish op d a b s = complete op.mnemonic (.reg d v) s) ∨
    (op = .cmp ∧ aluFinish op d a b s = complete op.mnemonic (.flags (compareFlags a b)) s) := by
  unfold aluFinish
  cases h : aluApply s.cfg.shiftAmount op a b with
  | result v =>
    refine .inr (.inl ⟨?_, v, rfl⟩)
    rintro rfl
    simp [aluApply] at h
  | flags f =>
    obtain ⟨rfl, rfl⟩ := (aluApply_flags_iff _ _ _ _ _).mp h
    exact .inr (.inr ⟨rfl, rfl⟩)
  | divZero => exact .inl rfl

/-- A two-register ALU instruction whose register bytes are in range. -/
theorem aluTwo_of_lt {op : AluOp} {ra rb : Byte} {s : State} (ha : ra.toNat < 8) (hb : rb.toNat < 8) :
    aluTwo op ra rb s = aluFinish op ⟨ra.toNat, ha⟩ (s.reg ⟨ra.toNat, ha⟩) (s.reg ⟨rb.toNat, hb⟩) s := by
  simp only [aluTwo, withReg_of_lt ha, withReg_of_lt hb]

/-- A one-register ALU instruction whose register byte is in range. -/
theorem aluOne_of_lt {op : AluOp} {ra : Byte} {s : State} (ha : ra.toNat < 8) :
    aluOne op ra s = aluFinish op ⟨ra.toNat, ha⟩ (s.reg ⟨ra.toNat, ha⟩) 0 s := by
  simp only [aluOne, withReg_of_lt ha]

/-- The ALU operation of a mnemonic is that of the dispatcher. -/
@[simp] theorem AluOp.aluOp_mnemonic (op : AluOp) : op.mnemonic.aluOp = some op := by cases op <;> rfl

end Sys2Proof.Machine
end

