-- ==== Sys2Proof/Laws/PerInstr.lean ====
section
/-! SUPPORT. Facts about every instruction as syntax, one lemma per constructor: how many operand bytes it is
written with, and that its operand bytes make it again. -/

namespace Sys2Proof

/-- The encoder writes as many operand bytes as the dispatcher counts (30_encoding.md R76). -/
def Laws.OperandCount.Statement (i : Instr) : Prop :=
  ∀ cfg : Config, (operandBytes cfg i).length = cfg.operandCount i.mnemonic

/-- The operand bytes of an instruction make that instruction again (30_encoding.md R71, R72). -/
def Laws.Reassembly.Statement (i : Instr) : Prop :=
  ∀ (cfg : Config) (rest : List Byte),
    i.mnemonic.assemble ((operandBytes cfg i ++ rest).getD 0 0) ((operandBytes cfg i ++ rest).getD 1 0) = i

/-- The operand bytes of INC and DEC are as many as `INCDEC_OPERAND_COUNT` says. -/
theorem incDecOperandBytes_length (cfg : Config) (ra : Byte) :
    (incDecOperandBytes cfg ra).length = match cfg.incDecOperands with | .one => 1 | .two => 2 := by
  unfold incDecOperandBytes
  cases cfg.incDecOperands <;> rfl

/-- The first operand byte of INC and DEC is the register's. -/
theorem incDecOperandBytes_first (cfg : Config) (ra : Byte) (rest : List Byte) :
    (incDecOperandBytes cfg ra ++ rest).getD 0 0 = ra := by
  unfold incDecOperandBytes
  cases cfg.incDecOperands <;> rfl

theorem Laws.OperandCount.add (ra rb : Byte) : Laws.OperandCount.Statement (.add ra rb) := by
  intro cfg
  rfl

theorem Laws.OperandCount.sub (ra rb : Byte) : Laws.OperandCount.Statement (.sub ra rb) := by
  intro cfg
  rfl

theorem Laws.OperandCount.mul (ra rb : Byte) : Laws.OperandCount.Statement (.mul ra rb) := by
  intro cfg
  rfl

theorem Laws.OperandCount.div (ra rb : Byte) : Laws.OperandCount.Statement (.div ra rb) := by
  intro cfg
  rfl

theorem Laws.OperandCount.mod (ra rb : Byte) : Laws.OperandCount.Statement (.mod ra rb) := by
  intro cfg
  rfl

theorem Laws.OperandCount.inc (ra : Byte) : Laws.OperandCount.Statement (.inc ra) := by
  intro cfg
  have h := incDecOperandBytes_length cfg ra
  simp only [operandBytes, Instr.mnemonic, Config.operandCount, Config.format, h]
  cases cfg.incDecOperands <;> rfl

theorem Laws.OperandCount.dec (ra : Byte) : Laws.OperandCount.Statement (.dec ra) := by
  intro cfg
  have h := incDecOperandBytes_length cfg ra
  simp only [operandBytes, Instr.mnemonic, Config.operandCount, Config.format, h]
  cases cfg.incDecOperands <;> rfl

theorem Laws.OperandCount.and (ra rb : Byte) : Laws.OperandCount.Statement (.and ra rb) := by
  intro cfg
  rfl

theorem Laws.OperandCount.or (ra rb : Byte) : Laws.OperandCount.Statement (.or ra rb) := by
  intro cfg
  rfl

theorem Laws.OperandCount.xor (ra rb : Byte) : Laws.OperandCount.Statement (.xor ra rb) := by
  intro cfg
  rfl

theorem Laws.OperandCount.not (ra : Byte) : Laws.OperandCount.Statement (.not ra) := by
  intro cfg
  rfl

theorem Laws.OperandCount.shl (ra rb : Byte) : Laws.OperandCount.Statement (.shl ra rb) := by
  intro cfg
  rfl

theorem Laws.OperandCount.shr (ra rb : Byte) : Laws.OperandCount.Statement (.shr ra rb) := by
  intro cfg
  rfl

theorem Laws.OperandCount.cmp (ra rb : Byte) : Laws.OperandCount.Statement (.cmp ra rb) := by
  intro cfg
  rfl

theorem Laws.OperandCount.ldi (ra rb : Byte) : Laws.OperandCount.Statement (.ldi ra rb) := by
  intro cfg
  rfl

theorem Laws.OperandCount.prn (ra : Byte) : Laws.OperandCount.Statement (.prn ra) := by
  intro cfg
  rfl

theorem Laws.OperandCount.hlt : Laws.OperandCount.Statement .hlt := by
  intro cfg
  rfl

theorem Laws.Reassembly.add (ra rb : Byte) : Laws.Reassembly.Statement (.add ra rb) := by
  intro cfg rest
  rfl

theorem Laws.Reassembly.sub (ra rb : Byte) : Laws.Reassembly.Statement (.sub ra rb) := by
  intro cfg rest
  rfl

theorem Laws.Reassembly.mul (ra rb : Byte) : Laws.Reassembly.Statement (.mul ra rb) := by
  intro cfg rest
  rfl

theorem Laws.Reassembly.div (ra rb : Byte) : Laws.Reassembly.Statement (.div ra rb) := by
  intro cfg rest
  rfl

theorem Laws.Reassembly.mod (ra rb : Byte) : Laws.Reassembly.Statement (.mod ra rb) := by
  intro cfg rest
  rfl

theorem Laws.Reassembly.inc (ra : Byte) : Laws.Reassembly.Statement (.inc ra) := by
  intro cfg rest
  simp only [operandBytes, Instr.mnemonic, Mnemonic.assemble, incDecOperandBytes_first]

theorem Laws.Reassembly.dec (ra : Byte) : Laws.Reassembly.Statement (.dec ra) := by
  intro cfg rest
  simp only [operandBytes, Instr.mnemonic, Mnemonic.assemble, incDecOperandBytes_first]

theorem Laws.Reassembly.and (ra rb : Byte) : Laws.Reassembly.Statement (.and ra rb) := by
  intro cfg rest
  rfl

theorem Laws.Reassembly.or (ra rb : Byte) : Laws.Reassembly.Statement (.or ra rb) := by
  intro cfg rest
  rfl

theorem Laws.Reassembly.xor (ra rb : Byte) : Laws.Reassembly.Statement (.xor ra rb) := by
  intro cfg rest
  rfl

theorem Laws.Reassembly.not (ra : Byte) : Laws.Reassembly.Statement (.not ra) := by
  intro cfg rest
  rfl

theorem Laws.Reassembly.shl (ra rb : Byte) : Laws.Reassembly.Statement (.shl ra rb) := by
  intro cfg rest
  rfl

theorem Laws.Reassembly.shr (ra rb : Byte) : Laws.Reassembly.Statement (.shr ra rb) := by
  intro cfg rest
  rfl

theorem Laws.Reassembly.cmp (ra rb : Byte) : Laws.Reassembly.Statement (.cmp ra rb) := by
  intro cfg rest
  rfl

theorem Laws.Reassembly.ldi (ra rb : Byte) : Laws.Reassembly.Statement (.ldi ra rb) := by
  intro cfg rest
  rfl

theorem Laws.Reassembly.prn (ra : Byte) : Laws.Reassembly.Statement (.prn ra) := by
  intro cfg rest
  rfl

theorem Laws.Reassembly.hlt : Laws.Reassembly.Statement .hlt := by
  intro cfg rest
  rfl

end Sys2Proof
end

