-- ==== Sys2Proof/Laws/Decode.lean ====
section
/-! SUPPORT. The opcode map read both ways, and the shape of every length. -/

namespace Sys2Proof

/-- In a map, the byte found for a mnemonic is read back as that mnemonic. -/
theorem lookupMnemonic_of_lookupByte {map : OpcodeMap} (hm : map.isMap) {mn : Mnemonic} {op : Byte}
    (h : map.lookupByte mn = some op) : map.lookupMnemonic op = some mn := by
  induction map with
  | nil => simp [OpcodeMap.lookupByte] at h
  | cons entry rest ih =>
    obtain ⟨b, m⟩ := entry
    have hrest : OpcodeMap.isMap rest := (List.nodup_cons.mp hm).2
    have hb : b ∉ rest.map Prod.fst := (List.nodup_cons.mp hm).1
    by_cases hmn : m = mn
    · simp only [OpcodeMap.lookupByte, hmn, if_true, Option.some.injEq] at h
      simp [OpcodeMap.lookupMnemonic, h, hmn]
    · simp only [OpcodeMap.lookupByte, hmn, if_false] at h
      have hr := ih hrest h
      have : b ≠ op := by
        rintro rfl
        exact hb (mem_keys_of_lookupMnemonic hr)
      simp [OpcodeMap.lookupMnemonic, this, hr]
where
  mem_keys_of_lookupMnemonic {map : OpcodeMap} {op : Byte} {mn : Mnemonic}
      (h : map.lookupMnemonic op = some mn) : op ∈ map.map Prod.fst := by
    induction map with
    | nil => simp [OpcodeMap.lookupMnemonic] at h
    | cons entry rest ih =>
      obtain ⟨b, m⟩ := entry
      by_cases hb : b = op
      · simp [hb]
      · simp only [OpcodeMap.lookupMnemonic, hb, if_false] at h
        exact List.mem_cons_of_mem _ (ih h)

/-- In an injective map, the mnemonic found for a byte is written back as that byte. -/
theorem lookupByte_of_lookupMnemonic {map : OpcodeMap} (hm : map.isInjective) {mn : Mnemonic} {op : Byte}
    (h : map.lookupMnemonic op = some mn) : map.lookupByte mn = some op := by
  induction map with
  | nil => simp [OpcodeMap.lookupMnemonic] at h
  | cons entry rest ih =>
    obtain ⟨b, m⟩ := entry
    have hrest : OpcodeMap.isInjective rest := (List.nodup_cons.mp hm).2
    have hmem : m ∉ rest.map Prod.snd := (List.nodup_cons.mp hm).1
    by_cases hb : b = op
    · simp only [OpcodeMap.lookupMnemonic, hb, if_true, Option.some.injEq] at h
      simp [OpcodeMap.lookupByte, h, hb]
    · simp only [OpcodeMap.lookupMnemonic, hb, if_false] at h
      have hr := ih hrest h
      have : m ≠ mn := by
        rintro rfl
        exact hmem (mem_values_of_lookupByte hr)
      simp [OpcodeMap.lookupByte, this, hr]
where
  mem_values_of_lookupByte {map : OpcodeMap} {mn : Mnemonic} {op : Byte}
      (h : map.lookupByte mn = some op) : mn ∈ map.map Prod.snd := by
    induction map with
    | nil => simp [OpcodeMap.lookupByte] at h
    | cons entry rest ih =>
      obtain ⟨b, m⟩ := entry
      by_cases hm : m = mn
      · simp [hm]
      · simp only [OpcodeMap.lookupByte, hm, if_false] at h
        exact List.mem_cons_of_mem _ (ih h)

/-- An instruction is one to three bytes long (30_encoding.md R76). -/
theorem instrLength_bounds (cfg : Config) (m : Mnemonic) : 1 ≤ cfg.instrLength m ∧ cfg.instrLength m ≤ 3 := by
  unfold Config.instrLength Config.operandCount
  cases cfg.format m <;> simp [Format.operandCount]

/-- Only HLT is one byte long (30_encoding.md R76). -/
theorem instrLength_of_ne_hlt (cfg : Config) {m : Mnemonic} (h : m ≠ .hlt) : 2 ≤ cfg.instrLength m := by
  unfold Config.instrLength Config.operandCount Config.format
  cases m <;> cases cfg.incDecOperands <;> simp_all [Format.operandCount]

/-- The mnemonic of what a decode answers is the one its opcode stands for. -/
theorem decode_ok {cfg : Config} {op : Byte} {operands rest : List Byte} {i : Instr}
    (h : decode cfg (op :: operands) = .ok i rest) :
    ∃ m, cfg.opcodeMap.lookupMnemonic op = some m ∧ cfg.operandCount m ≤ operands.length ∧
      i = m.assemble (operands.getD 0 0) (operands.getD 1 0) ∧ rest = operands.drop (cfg.operandCount m) := by
  cases hm : cfg.opcodeMap.lookupMnemonic op with
  | none => simp [decode, hm] at h
  | some m =>
    simp only [decode, hm] at h
    by_cases hk : operands.length < cfg.operandCount m
    · simp [hk] at h
    · simp only [hk, if_false, DecodeResult.ok.injEq] at h
      exact ⟨m, rfl, by omega, h.1.symm, h.2.symm⟩

/-- The mnemonic of an assembled instruction. -/
@[simp] theorem assemble_mnemonic (m : Mnemonic) (b1 b2 : Byte) : (m.assemble b1 b2).mnemonic = m := by
  cases m <;> rfl

/-- Decoding looks at the instruction's own bytes only. -/
theorem decode_append {cfg : Config} {bytes rest : List Byte} {i : Instr} (h : decode cfg bytes = .ok i rest)
    (more : List Byte) : decode cfg (bytes ++ more) = .ok i (rest ++ more) := by
  cases bytes with
  | nil => simp [decode] at h
  | cons op operands =>
    obtain ⟨m, hm, hk, rfl, rfl⟩ := decode_ok h
    have hlen : ¬ (operands ++ more).length < cfg.operandCount m := by simp; omega
    simp only [List.cons_append, decode, hm, hlen, if_false]
    rw [List.drop_append_of_le_length hk]
    congr 1
    revert hk
    unfold Config.operandCount Config.format
    cases m <;> cases cfg.incDecOperands <;>
      rcases operands with _ | ⟨x, _ | ⟨y, r⟩⟩ <;> simp [Mnemonic.assemble, Format.operandCount]

end Sys2Proof
end

