-- ==== Sys2Proof/Laws/Exec.lean ====
section
/-! SUPPORT. The one inversion lemma of `exec`: what an instruction can do, said once. -/

namespace Sys2Proof.Machine

/-- The effects an instruction may commit: a register write to its first operand (never by CMP or PRN), the flags of
a comparison by CMP, an output event by PRN (10_state.md R22, R25, R32). -/
def EffectOf (i : Instr) (s : State) : Effect → Prop
  | .reg d _ => ∃ ra, i.regOperands.head? = some ra ∧ ra.toNat = d.val ∧
      i.mnemonic ≠ .cmp ∧ i.mnemonic ≠ .prn ∧ i.mnemonic ≠ .hlt
  | .flags f => i.mnemonic = .cmp ∧ ∃ a b, f = compareFlags a b
  | .emit v => ∃ ra, i = .prn ra ∧ ∃ h : ra.toNat < 8, v = s.reg ⟨ra.toNat, h⟩

/-- How an instruction can end: in a fault, in a halt, or completed with its effect and the pc advanced. -/
def ExecEnds (i : Instr) (s t : State) : Prop :=
  (i ≠ .hlt ∧ ∃ c, t = raise c s) ∨ (i = .hlt ∧ t = s.halt) ∨
  (i ≠ .hlt ∧ i.wf = true ∧ ∃ e, EffectOf i s e ∧
    s.pc.toNat + s.cfg.instrLength i.mnemonic ≤ lastPc s.cfg.endOfMemory ∧
    t = (commit e s).setPc (s.pc.toNat + s.cfg.instrLength i.mnemonic))

theorem execEnds_fault {i : Instr} {s : State} (h : i ≠ .hlt) (c : Cause) : ExecEnds i s (raise c s) :=
  .inl ⟨h, c, rfl⟩

theorem execEnds_complete {i : Instr} {s : State} {e : Effect} (h : i ≠ .hlt) (hw : i.wf = true)
    (he : EffectOf i s e) : ExecEnds i s (complete i.mnemonic e s) := by
  rcases complete_cases i.mnemonic e s with ⟨_, hc⟩ | ⟨hp, hc⟩
  · rw [hc]; exact execEnds_fault h _
  · exact .inr (.inr ⟨h, hw, e, he, hp, hc⟩)

theorem execEnds_withReg {i : Instr} {s : State} {b : Byte} {use : RegIdx → State} (h : i ≠ .hlt)
    (hu : ∀ hb : b.toNat < 8, ExecEnds i s (use ⟨b.toNat, hb⟩)) : ExecEnds i s (withReg b s use) := by
  by_cases hb : b.toNat < 8
  · rw [withReg_of_lt hb]; exact hu hb
  · rw [withReg_of_ge (Nat.not_lt.mp hb)]; exact execEnds_fault h _

theorem execEnds_aluFinish {i : Instr} {s : State} {op : AluOp} {ra : Byte} (ha : ra.toNat < 8) {a b : Word}
    (hm : i.mnemonic = op.mnemonic) (hw : i.wf = true) (hr : i.regOperands.head? = some ra) :
    ExecEnds i s (aluFinish op ⟨ra.toNat, ha⟩ a b s) := by
  have hne : i ≠ .hlt := by rintro rfl; cases op <;> simp [Instr.mnemonic, AluOp.mnemonic] at hm
  rcases aluFinish_cases op ⟨ra.toNat, ha⟩ a b s with h | ⟨hcmp, v, h⟩ | ⟨hcmp, h⟩
  · rw [h]; exact execEnds_fault hne _
  · rw [h, ← hm]
    refine execEnds_complete hne hw ⟨ra, hr, rfl, ?_⟩
    rw [hm]
    cases op <;> simp_all [AluOp.mnemonic]
  · rw [h, ← hm]
    exact execEnds_complete hne hw ⟨by rw [hm, hcmp]; rfl, a, b, rfl⟩

/-- An ALU instruction of two registers ends as `ExecEnds` says. -/
theorem execEnds_aluTwo {i : Instr} {s : State} {op : AluOp} {ra rb : Byte} (hm : i.mnemonic = op.mnemonic)
    (hr : i.regOperands = [ra, rb]) : ExecEnds i s (aluTwo op ra rb s) := by
  have hne : i ≠ .hlt := by rintro rfl; simp [Instr.regOperands] at hr
  refine execEnds_withReg hne fun ha => execEnds_withReg hne fun hb => ?_
  exact execEnds_aluFinish ha hm (by simp [Instr.wf, hr, regByteOk, ha, hb]) (by rw [hr]; rfl)

/-- An ALU instruction of one register ends as `ExecEnds` says. -/
theorem execEnds_aluOne {i : Instr} {s : State} {op : AluOp} {ra : Byte} (hm : i.mnemonic = op.mnemonic)
    (hr : i.regOperands = [ra]) : ExecEnds i s (aluOne op ra s) := by
  have hne : i ≠ .hlt := by rintro rfl; simp [Instr.regOperands] at hr
  refine execEnds_withReg hne fun ha => ?_
  exact execEnds_aluFinish ha hm (by simp [Instr.wf, hr, regByteOk, ha]) (by rw [hr]; rfl)

/-- What `exec` can do: it answers a next state, and that one as `ExecEnds` says. -/
theorem exec_next (i : Instr) (s : State) : ∃ t, exec i s = .next t ∧ ExecEnds i s t := by
  cases i with
  | add ra rb => exact ⟨_, rfl, execEnds_aluTwo rfl rfl⟩
  | sub ra rb => exact ⟨_, rfl, execEnds_aluTwo rfl rfl⟩
  | mul ra rb => exact ⟨_, rfl, execEnds_aluTwo rfl rfl⟩
  | div ra rb => exact ⟨_, rfl, execEnds_aluTwo rfl rfl⟩
  | mod ra rb => exact ⟨_, rfl, execEnds_aluTwo rfl rfl⟩
  | inc ra => exact ⟨_, rfl, execEnds_aluOne rfl rfl⟩
  | dec ra => exact ⟨_, rfl, execEnds_aluOne rfl rfl⟩
  | and ra rb => exact ⟨_, rfl, execEnds_aluTwo rfl rfl⟩
  | or ra rb => exact ⟨_, rfl, execEnds_aluTwo rfl rfl⟩
  | xor ra rb => exact ⟨_, rfl, execEnds_aluTwo rfl rfl⟩
  | not ra => exact ⟨_, rfl, execEnds_aluOne rfl rfl⟩
  | shl ra rb => exact ⟨_, rfl, execEnds_aluTwo rfl rfl⟩
  | shr ra rb => exact ⟨_, rfl, execEnds_aluTwo rfl rfl⟩
  | cmp ra rb => exact ⟨_, rfl, execEnds_aluTwo rfl rfl⟩
  | ldi ra imm =>
    refine ⟨_, rfl, execEnds_withReg (by simp) fun ha => ?_⟩
    exact execEnds_complete (i := .ldi ra imm) (by simp) (by simp [Instr.wf, Instr.regOperands, regByteOk, ha])
      ⟨ra, rfl, rfl, by simp [Instr.mnemonic]⟩
  | prn ra =>
    refine ⟨_, rfl, execEnds_withReg (by simp) fun ha => ?_⟩
    exact execEnds_complete (i := .prn ra) (by simp) (by simp [Instr.wf, Instr.regOperands, regByteOk, ha])
      ⟨ra, rfl, ha, rfl⟩
  | hlt => exact ⟨_, rfl, .inr (.inl ⟨rfl, rfl⟩)⟩

/-- The inversion lemma in the form later proofs cite. -/
theorem exec_cases {i : Instr} {s t : State} (h : exec i s = .next t) : ExecEnds i s t := by
  obtain ⟨t', h', he⟩ := exec_next i s
  rw [h'] at h
  cases h
  exact he

end Sys2Proof.Machine
end

