-- ==== Sys2Proof/Laws/Step.lean ====
section
/-! SUPPORT. What a fetch reads and what a step can do, said once. -/

namespace Sys2Proof.Machine

/-- The bytes of a fetch are the readable ones, in address order. -/
theorem bytesFrom_length (s : State) (n : Nat) : ∀ a, (bytesFrom s a n).length = min n (memSize - a) := by
  induction n with
  | zero => intro a; simp [bytesFrom]
  | succ n ih =>
    intro a
    unfold bytesFrom
    by_cases h : a < memSize
    · rw [memRead_of_lt h]
      simp only [List.length_cons, ih]
      omega
    · rw [memRead_of_ge (Nat.not_lt.mp h)]
      simp only [List.length_nil]
      omega

/-- The bytes of a fetch depend on memory alone. -/
theorem bytesFrom_congr {s s' : State} (h : s.mem = s'.mem) (n : Nat) : ∀ a, bytesFrom s a n = bytesFrom s' a n := by
  induction n with
  | zero => intro a; rfl
  | succ n ih => intro a; simp only [bytesFrom, memRead, h, ih]

/-- A fetch depends on memory, the pc and the decoding alone. -/
theorem fetch_congr {s s' : State} (hm : s.mem = s'.mem) (hp : s.pc = s'.pc)
    (hd : ∀ bytes, decode s.cfg bytes = decode s'.cfg bytes) : fetch s = fetch s' := by
  simp only [fetch, bytesFrom_congr hm, hp, hd]

/-- Bytes that stand in memory at an address are the front of what a fetch there reads. -/
theorem bytesFrom_of_reads (s : State) : ∀ (bs : List Byte) (a n : Nat), bs.length ≤ n →
    (∀ k (h : k < bs.length), s.mem.read (a + k) = some bs[k]) →
    ∃ more, bytesFrom s a n = bs ++ more := by
  intro bs
  induction bs with
  | nil => intro a n _ _; exact ⟨_, rfl⟩
  | cons v rest ih =>
    intro a n hn hr
    obtain ⟨n, rfl⟩ : ∃ m, n = m + 1 := ⟨n - 1, by simp at hn; omega⟩
    have h0 : s.mem.read a = some v := hr 0 (by simp)
    obtain ⟨more, hm⟩ := ih (a + 1) n (by simpa using hn) fun k hk => by
      have h1 := hr (k + 1) (by simpa using hk)
      rw [show a + 1 + k = a + (k + 1) by omega]
      exact h1
    refine ⟨more, ?_⟩
    have : memRead s a = .ok v := by simp only [memRead, h0]
    simp only [bytesFrom, this, hm, List.cons_append]

/-- A fetch of a byte outside the opcode map (30_encoding.md R77). -/
theorem fetch_unknown {s : State} {op : Byte} (hr : s.mem.read s.pc.toNat = some op)
    (hl : s.cfg.opcodeMap.lookupMnemonic op = none) :
    fetch s = .fault (.unknownOpcode (BitVec.ofNat 8 s.pc.toNat) op) := by
  have h0 : memRead s s.pc.toNat = .ok op := by simp only [memRead, hr]
  simp only [fetch, bytesFrom, h0, decode, hl]

/-- A fetch of a known opcode: a fault at 256 when an operand byte lies there, else an instruction of that mnemonic
(30_encoding.md R80). -/
theorem fetch_known {s : State} {op : Byte} {m : Mnemonic} (hr : s.mem.read s.pc.toNat = some op)
    (hl : s.cfg.opcodeMap.lookupMnemonic op = some m) :
    (256 ≤ s.pc.toNat + s.cfg.operandCount m → fetch s = .fault (.addressOutOfRange 256)) ∧
    (s.pc.toNat + s.cfg.operandCount m < 256 → ∃ i, fetch s = .instr i ∧ i.mnemonic = m) := by
  have hlt := Memory.lt_of_read hr
  have hb := instrLength_bounds s.cfg m
  have h0 : memRead s s.pc.toNat = .ok op := by simp only [memRead, hr]
  have hbytes : bytesFrom s s.pc.toNat 3 = op :: bytesFrom s (s.pc.toNat + 1) 2 := by
    rw [bytesFrom]; simp only [h0]
  have hlen := bytesFrom_length s 2 (s.pc.toNat + 1)
  simp only [memSize, Config.instrLength] at hlen hlt hb
  constructor
  · intro hge
    have hk : (bytesFrom s (s.pc.toNat + 1) 2).length < s.cfg.operandCount m := by rw [hlen]; omega
    simp only [fetch, maxInsnLen, hbytes, decode, hl, hk, if_true, List.length_cons]
    have hend : s.pc.toNat + ((bytesFrom s (s.pc.toNat + 1) 2).length + 1) = 256 := by rw [hlen]; omega
    rw [hend]
    rfl
  · intro hend
    have hk : ¬ (bytesFrom s (s.pc.toNat + 1) 2).length < s.cfg.operandCount m := by rw [hlen]; omega
    simp only [fetch, maxInsnLen, hbytes, decode, hl, hk, if_false]
    exact ⟨_, rfl, assemble_mnemonic m _ _⟩

/-- A fetch where no byte can be read. -/
theorem fetch_past_memory {s : State} (h : memSize ≤ s.pc.toNat) : fetch s = .fault (.addressOutOfRange s.pc) := by
  have h0 := memRead_of_ge (s := s) h
  simp only [fetch, bytesFrom, h0, decode, List.length_nil, Nat.add_zero, BitVec.ofNat_toNat, BitVec.setWidth_eq]

/-- A running step executes what it fetches. -/
theorem step_of_fetch {s : State} {i : Instr} (hs : s.status = .running) (hf : fetch s = .instr i) :
    step s = exec i s := by
  simp only [step, hs, hf]

/-- A running step takes the fault of its fetch. -/
theorem step_of_fetch_fault {s : State} {c : Cause} (hs : s.status = .running) (hf : fetch s = .fault c) :
    step s = .next (raise c s) := by
  simp only [step, hs, hf]

/-- A step outside `Running` has no effect. -/
theorem step_of_not_running {s : State} (hs : s.status ≠ .running) : step s = .next s := by
  unfold step
  cases h : s.status <;> simp_all

@[simp] theorem run_zero (s : State) : run 0 s = .next s := rfl

/-- A run of one more step. -/
theorem run_succ {k : Nat} {s t : State} (h : step s = .next t) : run (k + 1) s = run k t := by
  have h' : Host.Core.step Sys2Proof.core s = .next t := h
  simp only [run, Host.Core.run, h']
  rfl

/-- What a step can do, said once: nothing outside `Running`; else a fault, or what `exec` does with the instruction
fetched. -/
theorem step_cases {s t : State} (h : step s = .next t) :
    (s.status ≠ .running ∧ t = s) ∨
    (s.status = .running ∧ ∃ c, t = raise c s) ∨
    (s.status = .running ∧ ∃ i, fetch s = .instr i ∧ ExecEnds i s t) := by
  by_cases hs : s.status = .running
  · cases hf : fetch s with
    | instr i =>
      rw [step_of_fetch hs hf] at h
      exact .inr (.inr ⟨hs, i, rfl, exec_cases h⟩)
    | fault c =>
      rw [step_of_fetch_fault hs hf] at h
      cases h
      exact .inr (.inl ⟨hs, c, rfl⟩)
  · rw [step_of_not_running hs] at h
    cases h
    exact .inl ⟨hs, rfl⟩

end Sys2Proof.Machine
end

