-- ==== Sys2Proof/Machine/Assembler.lean ====
section
/-! DEFINITION. The assembler text of an instruction (30_encoding.md R78, 00_scope.md R13). The unit itself never
sees it. -/

namespace Sys2Proof

/-- The mnemonic as spec/opcode_table.json spells it. -/
def Mnemonic.name : Mnemonic → String
  | .add => "ADD"
  | .sub => "SUB"
  | .mul => "MUL"
  | .div => "DIV"
  | .mod => "MOD"
  | .inc => "INC"
  | .dec => "DEC"
  | .and => "AND"
  | .or => "OR"
  | .xor => "XOR"
  | .not => "NOT"
  | .shl => "SHL"
  | .shr => "SHR"
  | .cmp => "CMP"
  | .ldi => "LDI"
  | .prn => "PRN"
  | .hlt => "HLT"

/-- A register operand, `Rn` with `n` in 0..7 (00_scope.md R13). DESIGN CHOICE: for a byte of 8 or more the spec gives
no text, and the byte's decimal number stands after the `R`, R8 to R255 (notes/assumptions/15.md). -/
def registerText (b : Byte) : String := "R" ++ toString b.toNat

/-- `MNEMONIC`, `MNEMONIC Rn`, `MNEMONIC Ra,Rb` or `LDI Rn,imm` (30_encoding.md R78). DESIGN CHOICE: of the two ways to
write an immediate (00_scope.md R13, decimal or `0x`), the decimal one (notes/assumptions/15.md). -/
def Instr.text (i : Instr) : String :=
  match i with
  | .add ra rb | .sub ra rb | .mul ra rb | .div ra rb | .mod ra rb | .and ra rb | .or ra rb | .xor ra rb
  | .shl ra rb | .shr ra rb | .cmp ra rb => i.mnemonic.name ++ " " ++ registerText ra ++ "," ++ registerText rb
  | .inc ra | .dec ra | .not ra | .prn ra => i.mnemonic.name ++ " " ++ registerText ra
  | .ldi ra imm => i.mnemonic.name ++ " " ++ registerText ra ++ "," ++ toString imm.toNat
  | .hlt => i.mnemonic.name

end Sys2Proof
end

