-- ==== Sys2Proof/Tests/Slice0.lean ====
section
/-! SUPPORT. The model's own tests. Expected results are those of spec/95_test_vectors.md and the worked examples of
40_alu.md and 41_ldi_prn_hlt.md; encodings are written out from 30_encoding.md R71 and R74. The second half shows, for
each obligation with hypotheses, a state and operands that meet them. -/

namespace Sys2Proof.Tests

open Sys2Proof.Machine

/-! ### Helpers -/

/-- The next state, if there is one. -/
def after (o : Host.Outcome State Fault Refusal) : Option State :=
  match o with
  | .next t => some t
  | .fault _ => none
  | .refused _ => none

/-- Both parameters at their other value (00_scope.md R9). -/
def otherCfg : Config :=
  { Config.default with incDecOperands := .two, shiftAmount := .full, endOfMemory := .faultAtNextFetch }

/-- A running machine with some bytes at the pc, R0 and R1 given and every register written. -/
def placed (cfg : Config) (pc : Nat) (bytes : List Byte) (r0 r1 : Word) : State :=
  let s := State.powerOn cfg
  match memWriteAll s pc bytes with
  | .ok s' =>
    { s' with
      pc := BitVec.ofNat 9 pc
      status := .running
      regs := #v[r0, r1, 0, 0, 0, 0, 0, 0]
      written := #v[true, true, true, true, true, true, true, true] }
  | .error _ => s

/-- The state after one step of the default machine with some bytes at address 0. -/
def one (bytes : List Byte) (r0 r1 : Word) : Option State := after (step (placed Config.default 0 bytes r0 r1))

/-- R0 and the pc after that step. -/
def r0pc (bytes : List Byte) (r0 r1 : Word) : Option (Word × Nat) :=
  (one bytes r0 r1).map fun t => (t.reg 0, t.pc.toNat)

/-- The fault cause, R0 and the pc after one step from a given state. -/
def faultOf (s : State) : Option (Option Cause × Word × Nat) :=
  (after (step s)).map fun t => (t.cause, t.reg 0, t.pc.toNat)

/-! ### Well-formedness refuses each ill-formed term -/

theorem test_wf_refuses_first_operand : (Instr.add 8 0).wf = false := by decide
theorem test_wf_refuses_second_operand : (Instr.cmp 0 12).wf = false := by decide
theorem test_wf_refuses_single_operand : (Instr.prn 255).wf = false := by decide
theorem test_wf_refuses_ldi_register : (Instr.ldi 8 5).wf = false := by decide
theorem test_wf_accepts_any_immediate : (Instr.ldi 7 255).wf = true := by decide
theorem test_wf_refuses_byte_listed_twice : ¬ OpcodeMap.isMap [(0x01, .hlt), (0x01, .prn)] := by decide
theorem test_wf_refuses_mnemonic_listed_twice : ¬ OpcodeMap.isInjective [(0x01, .hlt), (0x02, .hlt)] := by decide
theorem test_wf_default : Config.default.wf := by decide

/-! ### Decoding, each word written out from R71 and R74 -/

theorem test_decode_add : decode Config.default [0b10100000, 0, 1] = .ok (.add 0 1) [] := by decide
theorem test_decode_sub : decode Config.default [0b10100001, 2, 3] = .ok (.sub 2 3) [] := by decide
theorem test_decode_mul : decode Config.default [0b10100010, 0, 1] = .ok (.mul 0 1) [] := by decide
theorem test_decode_div : decode Config.default [0b10100011, 0, 1] = .ok (.div 0 1) [] := by decide
theorem test_decode_mod : decode Config.default [0b10100100, 4, 3] = .ok (.mod 4 3) [] := by decide
theorem test_decode_inc : decode Config.default [0b01100101, 4, 9] = .ok (.inc 4) [9] := by decide
theorem test_decode_dec : decode Config.default [0b01100110, 5, 9] = .ok (.dec 5) [9] := by decide
theorem test_decode_and : decode Config.default [0b10101000, 0, 1] = .ok (.and 0 1) [] := by decide
theorem test_decode_or : decode Config.default [0b10101010, 0, 1] = .ok (.or 0 1) [] := by decide
theorem test_decode_xor : decode Config.default [0b10101011, 0, 1] = .ok (.xor 0 1) [] := by decide
theorem test_decode_not : decode Config.default [0b01101001, 0, 1] = .ok (.not 0) [1] := by decide
theorem test_decode_shl : decode Config.default [0b10101100, 0, 2] = .ok (.shl 0 2) [] := by decide
theorem test_decode_shr : decode Config.default [0b10101101, 4, 2] = .ok (.shr 4 2) [] := by decide
theorem test_decode_cmp : decode Config.default [0b10100111, 0, 4] = .ok (.cmp 0 4) [] := by decide
theorem test_decode_ldi : decode Config.default [0b10000010, 0, 8] = .ok (.ldi 0 8) [] := by decide
theorem test_decode_prn : decode Config.default [0b01000111, 0, 1] = .ok (.prn 0) [1] := by decide
theorem test_decode_hlt : decode Config.default [0b00000001, 7] = .ok .hlt [7] := by decide
theorem test_decode_refuses_zero : decode Config.default [0, 1, 2] = .unknownOpcode 0 := by decide
theorem test_decode_refuses_jmp : decode Config.default [0x54, 0, 0] = .unknownOpcode 0x54 := by decide
theorem test_decode_truncated : decode Config.default [0xA0, 0] = .truncated := by decide
theorem test_decode_inc_ignores_third_byte : decode otherCfg [0x65, 4, 0xEE, 1] = .ok (.inc 4) [1] := by decide
theorem test_encode_sub : encode Config.default (.sub 2 3) = some [0xA1, 2, 3] := by decide
theorem test_encode_hlt : encode Config.default .hlt = some [0x01] := by decide
theorem test_table_word_ldi : decodeTableWord 24 0x080082 = some (.ldi 0 8) := by decide
theorem test_table_word_short : decodeTableWord 8 0xA0 = some (.add 0 0) := by decide
theorem test_table_word_unknown : decodeTableWord 8 0x00 = none := by decide
theorem test_fetch_word_first_step :
    fetch (State.reset.withFetchWord 24 0x0100A0) = .instr (.add 0 1) := by decide
theorem test_fetch_word_last_cell :
    fetch ((State.reset.setPc 255).withFetchWord 8 0x01) = .instr .hlt := by decide

/-- The informative layout `AABCDDDD` of the default map (30_encoding.md R75): operand count, ALU bit, no PC setter. -/
theorem test_default_map_layout :
    ∀ entry ∈ defaultOpcodeMap, entry.1.toNat / 64 = Config.default.operandCount entry.2 ∧
      (entry.1.getLsbD 5 = true ↔ entry.2.category = .alu) ∧ entry.1.getLsbD 4 = false := by decide

theorem test_text_div : (Instr.div 0 1).text = "DIV R0,R1" := by decide
theorem test_text_ldi : (Instr.ldi 0 8).text = "LDI R0,8" := by decide
theorem test_text_hlt : Instr.hlt.text = "HLT" := by decide

/-! ### One step of each instruction (95_test_vectors.md, part 2) -/

theorem test_add_wraps : r0pc [0xA0, 0, 1] 250 10 = some (4, 3) := by decide
theorem test_add_same_register : r0pc [0xA0, 0, 0] 200 1 = some (144, 3) := by decide
theorem test_sub_borrows : r0pc [0xA1, 0, 1] 0 255 = some (1, 3) := by decide
theorem test_sub_order : r0pc [0xA1, 0, 1] 3 5 = some (254, 3) := by decide
theorem test_mul_wraps : r0pc [0xA2, 0, 1] 200 3 = some (88, 3) := by decide
theorem test_mul_high_bits_lost : r0pc [0xA2, 0, 1] 255 255 = some (1, 3) := by decide
theorem test_div_quotient : r0pc [0xA3, 0, 1] 10 3 = some (3, 3) := by decide
theorem test_div_by_zero :
    faultOf (placed Config.default 0 [0xA3, 0, 1] 10 0) = some (some .divisionByZero, 10, 0) := by decide
theorem test_mod_remainder : r0pc [0xA4, 0, 1] 255 16 = some (15, 3) := by decide
theorem test_mod_by_zero :
    faultOf (placed Config.default 0 [0xA4, 0, 1] 10 0) = some (some .divisionByZero, 10, 0) := by decide
theorem test_inc_wraps : r0pc [0x65, 0] 255 0 = some (0, 2) := by decide
theorem test_inc_three_bytes :
    (after (step (placed otherCfg 0 [0x65, 0, 0xEE] 7 0))).map (fun t => (t.reg 0, t.pc)) = some (8, 3) := by decide
theorem test_dec_wraps : r0pc [0x66, 0] 0 0 = some (255, 2) := by decide
theorem test_dec_to_zero : r0pc [0x66, 0] 1 0 = some (0, 2) := by decide
theorem test_and_bits : r0pc [0xA8, 0, 1] 0xF0 0x3C = some (0x30, 3) := by decide
theorem test_or_bits : r0pc [0xAA, 0, 1] 0xF0 0x3C = some (0xFC, 3) := by decide
theorem test_xor_bits : r0pc [0xAB, 0, 1] 0xF0 0x3C = some (0xCC, 3) := by decide
theorem test_xor_same_register : r0pc [0xAB, 0, 0] 0xA5 0 = some (0, 3) := by decide
theorem test_not_complements : r0pc [0x69, 0] 0x0F 0 = some (0xF0, 2) := by decide
theorem test_shl_mod_width : r0pc [0xAC, 0, 1] 0x81 9 = some (0x02, 3) := by decide
theorem test_shl_full :
    (after (step (placed otherCfg 0 [0xAC, 0, 1] 0x81 8))).map (fun t => t.reg 0) = some 0 := by decide
theorem test_shr_logical : r0pc [0xAD, 0, 1] 0x80 1 = some (0x40, 3) := by decide
theorem test_shr_full :
    (after (step (placed otherCfg 0 [0xAD, 0, 1] 0x81 255))).map (fun t => t.reg 0) = some 0 := by decide
theorem test_cmp_unsigned :
    (one [0xA7, 0, 1] 128 127).map (fun t => (t.flags, t.reg 0)) = some (⟨false, true, false⟩, 128) := by decide
theorem test_cmp_less :
    (one [0xA7, 0, 1] 5 9).map (fun t => (t.flags, t.reg 1)) = some (⟨true, false, false⟩, 9) := by decide
theorem test_ldi_immediate : r0pc [0x82, 0, 255] 7 0 = some (255, 3) := by decide
theorem test_ldi_marks_written :
    (after (step (loadFresh Config.default [0x82, 3, 0]))).map (fun t => (t.isWritten 3, t.isWritten 2)) =
      some (true, false) := by decide
theorem test_prn_emits : (one [0x47, 0] 200 0).map (fun t => (t.out, t.pc)) = some ([200], 2) := by decide
theorem test_hlt_in_last_cell :
    (after (step (placed Config.default 255 [0x01] 0 0))).map (fun t => (t.status, t.pc)) =
      some (.halted, 255) := by decide

/-! ### Faults and the load (95_test_vectors.md 2.6, 2.7) -/

theorem test_unknown_opcode :
    faultOf (placed Config.default 5 [0x00] 1 0) = some (some (.unknownOpcode 5 0x00), 1, 5) := by decide
theorem test_register_out_of_range_second :
    faultOf (placed Config.default 0 [0xA0, 0, 0x0C] 1 0) = some (some (.registerOutOfRange 12), 1, 0) := by decide
theorem test_register_checks_before_division :
    faultOf (placed Config.default 0 [0xA3, 9, 1] 1 0) = some (some (.registerOutOfRange 9), 1, 0) := by decide
theorem test_operand_past_memory :
    faultOf (placed Config.default 254 [0x82, 0] 1 0) = some (some (.addressOutOfRange 256), 1, 254) := by decide
theorem test_advance_past_memory :
    faultOf (placed Config.default 254 [0x65, 0] 1 0) = some (some (.addressOutOfRange 256), 1, 254) := by decide
theorem test_advance_to_256_in_other_mode :
    faultOf (placed { otherCfg with incDecOperands := .one } 254 [0x65, 0] 1 0) = some (none, 2, 256) := by decide
theorem test_fetch_at_256 :
    faultOf (placed otherCfg 256 [] 2 0) = some (some (.addressOutOfRange 256), 2, 256) := by decide
theorem test_division_before_advance :
    faultOf (placed Config.default 253 [0xA3, 0, 1] 3 0) = some (some .divisionByZero, 3, 253) := by decide
theorem test_advance_after_division :
    faultOf (placed Config.default 253 [0xA3, 0, 1] 3 5) = some (some (.addressOutOfRange 256), 3, 253) := by decide
theorem test_step_in_idle : after (step State.reset) = some State.reset := by decide
theorem test_load_copies :
    (after (load [0x82, 0, 8] State.reset)).map (fun t => (t.status, t.mem.read 2, t.mem.read 3, t.mem.read 256)) =
      some (.running, some 8, some 0, none) := by decide
theorem test_reset_reads_unwritten : stepReadsUnwritten (loadFresh Config.default [0xA0, 0, 1]) = true := by decide

/-! ### Witnesses: the hypotheses of each obligation can be met -/

/-- A step that completes, the pc then at 3. It meets the premises of LengthRuleAndAdvance, StepIsAtomic, FlagsAreNeverRead,
OutputGrowsByPrnAlone (second clause), StepKeepsTheInvariant and RunEndsWithin256Steps. -/
theorem witness_completing_step :
    ∃ (s t : State) (i : Instr), s.Inv ∧ s.status = .running ∧ fetch s = .instr i ∧ i ≠ .hlt ∧
      step s = .next t ∧ t.status ≠ .faulted ∧ t.pc = 3 :=
  ⟨placed Config.default 0 [0xA0, 0, 1] 250 10, _, .add 0 1, by decide, by decide, by decide, by decide, rfl,
    by decide, by decide⟩

theorem witness_IncDecIgnoreTheirThirdByte :
    otherCfg.incDecOperands = .two ∧ otherCfg.opcodeMap.lookupMnemonic 0x65 = some .inc ∧
      otherCfg.opcodeMap.lookupMnemonic 0x66 = some .dec := by decide

theorem witness_DecodeOfEncodeIsTheInstruction :
    Config.default.opcodeMap.isMap ∧ encode Config.default (.ldi 255 255) = some [0x82, 255, 255] := by decide

theorem witness_EncodeOfDecodeIsTheBytes :
    otherCfg.opcodeMap.isInjective ∧ decode otherCfg [0x65, 4, 0xEE, 1] = .ok (.inc 4) [1] ∧
      decode otherCfg [0xA0, 0, 1] = .ok (.add 0 1) [] := by decide

theorem witness_StepRunsTheDecodedInstruction :
    ∃ (s : State) (i : Instr) (bytes : List Byte), s.status = .running ∧ decode s.cfg bytes = .ok i [] ∧
      ∀ k (h : k < bytes.length), s.mem.read (s.pc.toNat + k) = some bytes[k] :=
  ⟨placed Config.default 252 [0xA0, 0, 1] 250 10, .add 0 1, [0xA0, 0, 1], by decide, by decide, by decide⟩

theorem witness_StepOutsideRunningHasNoEffect :
    State.reset.status = .idle ∧ State.reset.halt.status = .halted ∧
      (raise .divisionByZero State.reset).status = .faulted := by decide

theorem witness_UnknownOpcodeFaults :
    ∃ (s : State) (op : Byte), s.status = .running ∧ s.mem.read s.pc.toNat = some op ∧
      s.cfg.opcodeMap.lookupMnemonic op = none :=
  ⟨placed Config.default 255 [0xFF] 0 0, 0xFF, by decide, by decide, by decide⟩

theorem witness_OperandPastMemoryFaults :
    ∃ (s : State) (op : Byte) (m : Mnemonic), s.status = .running ∧ s.mem.read s.pc.toNat = some op ∧
      s.cfg.opcodeMap.lookupMnemonic op = some m ∧ 256 ≤ s.pc.toNat + s.cfg.operandCount m :=
  ⟨placed Config.default 255 [0x47] 0 0, 0x47, .prn, by decide, by decide, by decide, by decide⟩

theorem witness_OpcodeFetchPastMemoryFaults : ∃ s : State, s.status = .running ∧ 256 ≤ s.pc.toNat :=
  ⟨placed otherCfg 256 [] 0 0, by decide, by decide⟩

theorem witness_LastByteCompletesThenNextFetchFaults :
    ∃ (s t : State) (i : Instr), s.cfg.endOfMemory = .faultAtNextFetch ∧ s.status = .running ∧ fetch s = .instr i ∧
      i ≠ .hlt ∧ s.pc.toNat + s.cfg.instrLength i.mnemonic = 256 ∧ step s = .next t ∧ t.status ≠ .faulted :=
  ⟨placed otherCfg 253 [0xA0, 0, 1] 1 2, _, .add 0 1, by decide, by decide, by decide, by decide, by decide, rfl,
    by decide⟩

theorem witness_EndOfMemoryModesAgreeElsewhere :
    ∃ s t : State, (∀ i, fetch s = .instr i → i = .hlt ∨ s.pc.toNat + s.cfg.instrLength i.mnemonic ≠ 256) ∧
      step s = .next t ∧ t.pc = 255 := by
  refine ⟨placed Config.default 252 [0xA0, 0, 1] 1 2, _, fun i h => ?_, rfl, by decide⟩
  have hf : fetch (placed Config.default 252 [0xA0, 0, 1] 1 2) = .instr (.add 0 1) := by decide
  rw [hf] at h
  cases h
  decide

/-- Each clause of the order of faults: unknown opcode, operand at 256, register, division, advance. -/
theorem witness_FaultsAreReportedInOrder :
    (∃ s : State, s.status = .running ∧ s.mem.read s.pc.toNat = some 0 ∧ s.cfg.opcodeMap.lookupMnemonic 0 = none) ∧
    (∃ s : State, s.status = .running ∧ s.mem.read s.pc.toNat = some 0xA0 ∧
      s.cfg.opcodeMap.lookupMnemonic 0xA0 = some .add ∧ s.pc.toNat + s.cfg.operandCount .add = 256) ∧
    (∃ s : State, s.status = .running ∧ s.pc.toNat + s.cfg.operandCount .div = 255 ∧
      fetch s = .instr (.div 8 9) ∧ firstBadRegister (.div 8 9) = some 8) ∧
    (∃ s : State, s.status = .running ∧ s.pc.toNat + s.cfg.operandCount .div = 255 ∧
      fetch s = .instr (.div 7 1) ∧ firstBadRegister (.div 7 1) = none ∧ DividesByZero (.div 7 1) s) ∧
    (∃ s : State, s.status = .running ∧ s.pc.toNat + s.cfg.operandCount .div = 255 ∧
      fetch s = .instr (.div 0 1) ∧ firstBadRegister (.div 0 1) = none ∧ ¬ DividesByZero (.div 0 1) s ∧
      ¬ Fits (s.cfg.instrLength .div) s) := by
  refine ⟨⟨placed Config.default 255 [] 0 0, by decide, by decide, by decide⟩,
    ⟨placed Config.default 254 [0xA0, 0] 0 0, by decide, by decide, by decide, by decide⟩,
    ⟨placed Config.default 253 [0xA3, 8, 9] 0 0, by decide, by decide, by decide, by decide⟩,
    ⟨placed Config.default 253 [0xA3, 7, 1] 3 0, by decide, by decide, by decide, by decide,
      7, 1, 1, .inl rfl, by decide, by decide⟩,
    ⟨placed Config.default 253 [0xA3, 0, 1] 3 5, by decide, by decide, by decide, by decide, ?_,
      by unfold Fits; decide⟩⟩
  rintro ⟨ra, rb, j, h, hj, hz⟩
  obtain ⟨rfl, rfl⟩ : ra = 0 ∧ rb = 1 := by rcases h with h | h <;> cases h; exact ⟨rfl, rfl⟩
  obtain rfl : j = 1 := Fin.ext hj.symm
  exact absurd hz (by decide)

/-- A step that faults, for FaultsArePrecise, StepIsAtomic and StepKeepsTheInvariant. -/
theorem witness_faulting_step :
    ∃ s t : State, s.Inv ∧ s.status = .running ∧ step s = .next t ∧ t.status = .faulted :=
  ⟨placed Config.default 253 [0xA3, 0, 1] 3 0, _, by decide, by decide, rfl, by decide⟩

theorem witness_RegistersWrittenOnlyByFirstOperand :
    ∃ s t : State, exec (.ldi 7 9) s = .next t ∧ t.reg 7 ≠ s.reg 7 ∧ t.isWritten 7 ≠ s.isWritten 7 :=
  ⟨State.reset, _, rfl, by decide, by decide⟩

theorem witness_RegisterByteOutOfRangeFaults :
    firstBadRegister (.add 7 8) = some 8 ∧ firstBadRegister (.prn 255) = some 255 ∧
      firstBadRegister (.add 7 7) = none := by decide

/-- The premise of the second clause: a cause of that kind that was there before the instruction. -/
theorem witness_RegisterByteOutOfRangeFaults_kept :
    ∃ s t : State, firstBadRegister .hlt = none ∧ exec .hlt s = .next t ∧ t.cause = some (.registerOutOfRange 8) :=
  ⟨raise (.registerOutOfRange 8) State.reset, _, by decide, rfl, by decide⟩

theorem witness_FlagsChangedOnlyByCmp :
    ∃ s t : State, exec (.cmp 0 0) s = .next t ∧ t.flags ≠ s.flags :=
  ⟨State.reset, _, rfl, by decide⟩

/-- The first clause: a PRN at the last place where it completes. -/
theorem witness_OutputGrowsByPrnAlone :
    ∃ s t : State, step s = .next t ∧ s.status = .running ∧ fetch s = .instr (.prn 7) ∧ t.status = .running ∧
      t.pc = 255 :=
  ⟨placed Config.default 253 [0x47, 7] 0 0, _, rfl, by decide, by decide, by decide, by decide⟩

theorem witness_CauseIsTheRaisedFault :
    ∃ s t u : State, s.CauseMatchesStatus ∧ step s = .next t ∧ t.CauseMatchesStatus ∧ t.cause ≠ none ∧
      load [] t = .next u :=
  ⟨placed Config.default 0 [0] 0 0, _, _, by decide, rfl, by decide, by decide, rfl⟩

theorem witness_ProgramTooLarge_is_never_raised_by_a_step :
    ∃ s t : State, s.status = .running ∧ step s = .next t ∧ t.cause = some .programTooLarge :=
  ⟨{ placed Config.default 0 [1] 0 0 with cause := some .programTooLarge }, _, by decide, rfl, by decide⟩

theorem witness_RunEndsWithin256Steps : (placed Config.default 0 [0x65, 0, 0x01] 0 0).status = .running := by decide

theorem witness_RunKeepsMemoryAndConfiguration :
    ∃ t : State, run 2 (placed Config.default 0 [0x65, 0, 0x01] 0 0) = .next t ∧ t.status = .halted :=
  ⟨_, rfl, by decide⟩

/-- Two states that agree but for the `unwritten` R1, and a run of two steps that reads R0 alone. -/
theorem witness_UnwrittenValuesDoNotMatter :
    ∃ s s' : State, s.AgreeOnWritten s' ∧ s ≠ s' ∧ specDetermined 2 s = true :=
  let s := loadFresh Config.default [0x82, 0, 8, 0x47, 0, 1]
  ⟨s, { s with regs := #v[0, 77, 0, 0, 0, 0, 0, 0] },
    ⟨rfl, rfl, rfl, by decide, rfl, rfl, rfl, rfl, rfl⟩, by decide, by decide⟩

theorem witness_MemWriteSetsOneCell :
    (placed Config.default 0 [1, 2] 0 0).mem.wf ∧ (255 : Nat) ≤ 255 ∧ (256 : Nat) ≤ 256 := by decide

theorem witness_EqualReadsAreEqualMemories :
    Memory.wf [(0, 1), (255, 2)] ∧ (∀ a, a < 256 → Memory.read [(0, 1), (255, 2)] a = Memory.read [(0, 1), (255, 2)] a) :=
  ⟨by decide, fun _ _ => rfl⟩

/-- Both kinds of entry of `REG_INIT`, for PowerOnValues and LoadResetsAndCopies. -/
theorem witness_PowerOnValues :
    ∃ cfg : Config, cfg.regInit[(7 : RegIdx)] = .byte 0xF4 ∧ cfg.regInit[(0 : RegIdx)] = .unwritten :=
  ⟨{ Config.default with
      regInit := #v[.unwritten, .unwritten, .unwritten, .unwritten, .unwritten, .unwritten, .unwritten, .byte 0xF4] },
    by decide, by decide⟩

theorem witness_LoadResetsAndCopies :
    State.reset.status = .idle ∧ (List.replicate 256 (1 : Byte)).length ≤ 256 ∧
      256 < (List.replicate 257 (1 : Byte)).length := by
  rw [List.length_replicate, List.length_replicate]
  decide

theorem witness_LoadGivesTheInvariant : ∃ t : State, load [1] State.reset = .next t ∧ t.status = .running :=
  ⟨_, rfl, by decide⟩

theorem witness_LoadWhileRunningIsRefused : (loadFresh Config.default [1]).status = .running := by decide

theorem witness_FreshLoadForgetsTheRunBefore :
    State.reset ≠ State.reset.halt ∧ State.reset.status ≠ .running ∧ State.reset.halt.status ≠ .running ∧
      State.reset.cfg = State.reset.halt.cfg := by decide

theorem witness_EmptyProgramFaultsAtItsFirstStep :
    State.reset.status ≠ .running ∧ State.reset.cfg.opcodeMap.lookupMnemonic 0 = none := by decide

/-- The clauses about the operands and the pc that the statements on single instructions share (AddSubMulWrap,
AndOrXorBitwise, ShiftsAreLogical, CmpSetsTheFlags, LdiWritesTheImmediate, IncDecWrap, NotComplements, PrnEmitsTheRegister), each at its boundary: register bytes 7
and 8; three bytes ending at 255 and at 256 in each mode; two bytes likewise. -/
theorem witness_instruction_rules :
    ((7 : Byte).toNat = (7 : RegIdx).val ∧ 8 ≤ (8 : Byte).toNat) ∧
    Fits 3 (placed Config.default 252 [] 0 0) ∧ ¬ Fits 3 (placed Config.default 253 [] 0 0) ∧
    Fits 3 (placed otherCfg 253 [] 0 0) ∧ ¬ Fits 3 (placed otherCfg 254 [] 0 0) ∧
    Fits 2 (placed Config.default 253 [] 0 0) ∧ ¬ Fits 2 (placed Config.default 254 [] 0 0) := by
  unfold Fits
  decide

/-- Zero and nonzero divisors, where the instruction fits and where it does not. -/
theorem witness_DivModOrDivisionByZero :
    (∃ s : State, (s.reg 1).toNat = 0 ∧ Fits 3 s) ∧ (∃ s : State, (s.reg 1).toNat ≠ 0 ∧ Fits 3 s) ∧
      (∃ s : State, (s.reg 1).toNat ≠ 0 ∧ ¬ Fits 3 s) :=
  ⟨⟨placed Config.default 252 [] 3 0, by decide, by unfold Fits; decide⟩,
    ⟨placed Config.default 252 [] 3 1, by decide, by unfold Fits; decide⟩,
    ⟨placed Config.default 253 [] 3 1, by decide, by unfold Fits; decide⟩⟩

theorem witness_IncDecWrap :
    incDecLength Config.default = 2 ∧ incDecLength otherCfg = 3 := by decide

theorem witness_LdiThenPrnEmitsTheImmediate :
    (7 : Byte).toNat < 8 ∧ (placed Config.default 250 [] 0 0).pc.toNat + 5 < 256 := by decide

theorem witness_AluIntegerLaws : (0 : Word).toNat = 0 ∧ (1 : Word).toNat ≠ 0 := by decide

theorem witness_ShiftAmountModes : 8 ≤ (8 : Word).toNat ∧ (7 : Word).toNat < 8 := by decide

end Sys2Proof.Tests
end

section
/-! SUPPORT. Proofs of the statements about the state (10_state.md): what keeps the invariant, which instruction may
write which piece of state, and what no step reads. -/

namespace Sys2Proof.Machine

/-! ### The invariant

`step_cases` and `ExecEnds` say everything a step can do; each part of the invariant is a case analysis over them. -/

/-- Taking a fault sets the status and the cause together (10_state.md R31). -/
theorem raise_causeMatchesStatus (c : Cause) (s : State) : (raise c s).CauseMatchesStatus := by
  simp [State.CauseMatchesStatus]

/-- A running machine whose cause matches its status has none. -/
theorem State.CauseMatchesStatus.cause_of_running {s : State} (h : s.CauseMatchesStatus)
    (hs : s.status = .running) : s.cause = none := by
  by_contra hc
  have hf : s.status = .faulted := h.mp hc
  simp [hs] at hf

/-- A fault taken in a state that meets the invariant leaves one that does. -/
theorem State.Inv.raise {s : State} (h : s.Inv) (c : Cause) : (raise c s).Inv := by
  obtain ⟨hmem, hpc, -, hflags⟩ := h
  exact ⟨hmem, hpc, raise_causeMatchesStatus c s, hflags⟩

/-- What an instruction leaves in the cause and the status (10_state.md R31): a fault in both, or the cause as it
was and a status outside `Faulted`. -/
theorem ExecEnds.cause_status {i : Instr} {s t : State} (h : ExecEnds i s t) (hs : s.status = .running) :
    (∃ c, t.cause = some c ∧ t.status = .faulted) ∨ (t.cause = s.cause ∧ t.status ≠ .faulted) := by
  rcases h with ⟨-, c, rfl⟩ | ⟨-, rfl⟩ | ⟨-, -, e, -, -, rfl⟩
  · exact .inl ⟨c, rfl, rfl⟩
  · exact .inr ⟨rfl, by simp⟩
  · exact .inr ⟨by simp, by simp [hs]⟩

/-- A step has no effect, or it starts in `Running` and raises a fault, or it starts in `Running` and leaves the cause as
it was and a status outside `Faulted`. -/
theorem step_cause_status {s t : State} (h : step s = .next t) :
    t = s ∨ (s.status = .running ∧
      ((∃ c, t.cause = some c ∧ t.status = .faulted) ∨ (t.cause = s.cause ∧ t.status ≠ .faulted))) := by
  rcases step_cases h with ⟨-, rfl⟩ | ⟨hs, c, rfl⟩ | ⟨hs, i, -, hends⟩
  · exact .inl rfl
  · exact .inr ⟨hs, .inl ⟨c, rfl, rfl⟩⟩
  · exact .inr ⟨hs, hends.cause_status hs⟩

theorem step_causeMatchesStatus {s t : State} (hc : s.CauseMatchesStatus) (h : step s = .next t) :
    t.CauseMatchesStatus := by
  rcases step_cause_status h with rfl | ⟨hs, ⟨c, hcause, hst⟩ | ⟨hcause, hst⟩⟩
  · exact hc
  · simp [State.CauseMatchesStatus, hcause, hst]
  · simp [State.CauseMatchesStatus, hcause, hst, hc.cause_of_running hs]

/-- An effect that sets the flags sets those of a comparison. -/
theorem commit_flags_atMostOne {i : Instr} {s : State} {e : Effect} (he : EffectOf i s e)
    (hf : s.flags.AtMostOne) : (commit e s).flags.AtMostOne := by
  cases e with
  | reg d v => exact hf
  | emit v => exact hf
  | flags f =>
    obtain ⟨-, a, b, rfl⟩ := he
    exact (compareFlags_exactly_one a b).le

/-- The three parts of the invariant that do not speak of the cause are kept by an instruction. -/
theorem ExecEnds.keeps_mem_pc_flags {i : Instr} {s t : State} (h : ExecEnds i s t) (hmem : s.mem.wf)
    (hpc : s.PcInBounds) (hflags : s.flags.AtMostOne) : t.mem.wf ∧ t.PcInBounds ∧ t.flags.AtMostOne := by
  rcases h with ⟨-, c, rfl⟩ | ⟨-, rfl⟩ | ⟨-, -, e, he, hfit, rfl⟩
  · exact ⟨hmem, hpc, hflags⟩
  · exact ⟨hmem, hpc, hflags⟩
  · have hnext := toNat_ofNat_pc (hfit.trans (lastPc_le _))
    refine ⟨by simpa using hmem, ?_, commit_flags_atMostOne he hflags⟩
    simpa [State.PcInBounds, hnext] using hfit

/-- Every step keeps the invariant. -/
theorem step_inv {s t : State} (hinv : s.Inv) (h : step s = .next t) : t.Inv := by
  have ⟨hmem, hpc, hcause, hflags⟩ := hinv
  rcases step_cases h with ⟨-, rfl⟩ | ⟨-, c, rfl⟩ | ⟨-, i, -, hends⟩
  · exact hinv
  · exact hinv.raise c
  · obtain ⟨hmem', hpc', hflags'⟩ := hends.keeps_mem_pc_flags hmem hpc hflags
    exact ⟨hmem', hpc', step_causeMatchesStatus hcause h, hflags'⟩

/-- Settles O27, part by part over what a step can do. -/
theorem stepKeepsTheInvariant : Obligations.StepKeepsTheInvariant := fun _ _ => step_inv

/-! ### Power-on and load -/

/-- The power-on state meets the invariant under every configuration. -/
theorem powerOn_inv (cfg : Config) : (State.powerOn cfg).Inv :=
  ⟨Memory.wf_nil, Nat.zero_le _, by simp [State.CauseMatchesStatus, State.powerOn], by simp [State.powerOn]⟩

/-- What an accepted load leaves: a running state, power-on but for a canonical memory, or the power-on state faulted
by a program too large. -/
theorem load_cases {prog : List Byte} {s t : State} (h : load prog s = .next t) :
    (∃ m, Memory.wf m ∧ t = { State.powerOn s.cfg with mem := m, status := .running }) ∨
    t = raise .programTooLarge (State.powerOn s.cfg) := by
  have hs : s.status ≠ .running := by
    intro hs
    simp [load, hs] at h
  rw [load_of_not_running hs] at h
  cases h
  by_cases hlen : prog.length ≤ memSize
  · obtain ⟨m, hm, hwf, -⟩ := loadFresh_fits s.cfg hlen
    exact .inl ⟨m, hwf, hm⟩
  · exact .inr (loadFresh_too_large s.cfg (Nat.not_le.mp hlen))

theorem load_inv {prog : List Byte} {s t : State} (h : load prog s = .next t) : t.Inv := by
  rcases load_cases h with ⟨m, hwf, rfl⟩ | rfl
  · exact ⟨hwf, Nat.zero_le _, by simp [State.CauseMatchesStatus, State.powerOn], by simp [State.powerOn]⟩
  · exact (powerOn_inv s.cfg).raise _

theorem load_out {prog : List Byte} {s t : State} (h : load prog s = .next t) : t.out = [] := by
  rcases load_cases h with ⟨m, -, rfl⟩ | rfl <;> rfl

/-- Settles O29, over the two ways a load is accepted. -/
theorem loadGivesTheInvariant : Obligations.LoadGivesTheInvariant := fun _ _ _ => load_inv

/-- Settles O28, the case of the default configuration. -/
theorem resetMeetsTheInvariant : Obligations.ResetMeetsTheInvariant := powerOn_inv Config.default

/-- Settles O24: a step by what it does to cause and status, a load by the invariant. -/
theorem causeIsTheRaisedFault : Obligations.CauseIsTheRaisedFault := by
  intro s t hc
  refine ⟨fun h => ⟨step_causeMatchesStatus hc h, ?_⟩, fun prog h => ?_⟩
  · rcases step_cause_status h with rfl | ⟨hs, ⟨c, hcause, hst⟩ | ⟨hcause, -⟩⟩
    · exact .inl rfl
    · exact .inr ⟨hs, hc.cause_of_running hs, hst, by simp [hcause]⟩
    · exact .inl hcause
  · obtain ⟨-, -, hcause, -⟩ := load_inv h
    exact hcause

@[simp] theorem powerOn_reg (cfg : Config) (i : RegIdx) :
    (State.powerOn cfg).reg i = regInitValue cfg.regInit[i] := by
  fin_cases i <;> rfl

@[simp] theorem powerOn_isWritten (cfg : Config) (i : RegIdx) :
    (State.powerOn cfg).isWritten i = regInitWritten cfg.regInit[i] := by
  fin_cases i <;> rfl

/-- The power-on state of a machine's configuration is what its load resets to (10_state.md R42). -/
theorem powerOn_loadResets (s : State) : LoadResets s (State.powerOn s.cfg) := by
  refine ⟨rfl, fun i => ⟨fun v hv => ?_, fun hu => ?_⟩, rfl, rfl, rfl⟩
  · simp [hv, regInitValue, regInitWritten]
  · simp [hu, regInitWritten]

/-- Settles O34, register by register through `REG_INIT`. -/
theorem powerOnValues : Obligations.PowerOnValues := fun cfg =>
  ⟨rfl, powerOn_loadResets (State.powerOn cfg), rfl, rfl, fun _ ha => Memory.read_of_lt ha⟩

/-! ### Which instruction writes what -/

/-- Every mnemonic but CMP, PRN and HLT is in R22's list of those that write a register. -/
theorem mem_registerWriters {m : Mnemonic} (hcmp : m ≠ .cmp) (hprn : m ≠ .prn) (hhlt : m ≠ .hlt) :
    m ∈ [Mnemonic.add, .sub, .mul, .div, .mod, .and, .or, .xor, .not, .shl, .shr, .inc, .dec, .ldi] := by
  cases m <;> simp_all

/-- Settles O19: of the endings of an instruction only a committed register write changes a register. -/
theorem registersWrittenOnlyByFirstOperand : Obligations.RegistersWrittenOnlyByFirstOperand := by
  intro i s t d h hchanged
  rcases exec_cases h with ⟨-, c, rfl⟩ | ⟨-, rfl⟩ | ⟨-, -, e, he, -, rfl⟩
  · simp at hchanged
  · simp at hchanged
  · cases e with
    | flags f => simp [commit] at hchanged
    | emit v => simp [commit] at hchanged
    | reg d' v =>
      obtain ⟨ra, hra, hval, hcmp, hprn, hhlt⟩ := he
      obtain rfl : d' = d := by
        by_contra hne
        simp [commit, hne] at hchanged
      exact ⟨mem_registerWriters hcmp hprn hhlt, ra, hra, hval⟩

/-- CMP is the one instruction with its mnemonic. -/
theorem eq_cmp_of_mnemonic {i : Instr} (h : i.mnemonic = .cmp) : ∃ ra rb, i = .cmp ra rb := by
  cases i <;> simp_all [Instr.mnemonic]

/-- Settles O21: of the endings of an instruction only a committed comparison changes the flags. -/
theorem flagsChangedOnlyByCmp : Obligations.FlagsChangedOnlyByCmp := by
  intro i s t h hchanged
  rcases exec_cases h with ⟨-, c, rfl⟩ | ⟨-, rfl⟩ | ⟨-, -, e, he, -, rfl⟩
  · simp at hchanged
  · simp at hchanged
  · cases e with
    | reg d v => simp [commit] at hchanged
    | emit v => simp [commit] at hchanged
    | flags f => exact eq_cmp_of_mnemonic he.1

/-- An instruction leaves the output as it is, or it is PRN and completes with its register's value appended. -/
theorem ExecEnds.out_cases {i : Instr} {s t : State} (h : ExecEnds i s t) :
    (t.out = s.out ∧ ∀ ra, i = .prn ra → t.status = .faulted) ∨
    (t.status = s.status ∧ ∃ ra, i = .prn ra ∧ ∃ hr : ra.toNat < 8, t.out = s.out ++ [s.reg ⟨ra.toNat, hr⟩]) := by
  rcases h with ⟨-, c, rfl⟩ | ⟨rfl, rfl⟩ | ⟨-, -, e, he, -, rfl⟩
  · exact .inl ⟨rfl, fun _ _ => rfl⟩
  · exact .inl ⟨rfl, by simp⟩
  · cases e with
    | reg d v =>
      obtain ⟨-, -, -, -, hprn, -⟩ := he
      exact .inl ⟨rfl, fun ra hi => absurd (by rw [hi]; rfl) hprn⟩
    | flags f =>
      obtain ⟨hcmp, -⟩ := he
      exact .inl ⟨rfl, fun ra hi => by simp [hi, Instr.mnemonic] at hcmp⟩
    | emit v =>
      obtain ⟨ra, hi, hr, rfl⟩ := he
      exact .inr ⟨rfl, ra, hi, hr, rfl⟩

/-- A completed PRN step appends its register's value. -/
theorem step_prn_out {s t : State} {ra : Byte} {r : RegIdx} (h : step s = .next t) (hs : s.status = .running)
    (hf : fetch s = .instr (.prn ra)) (hr : ra.toNat = r.val) (ht : t.status = .running) :
    t.out = s.out ++ [s.reg r] := by
  rw [step_of_fetch hs hf] at h
  rcases (exec_cases h).out_cases with ⟨-, hfault⟩ | ⟨-, ra', hi, hlt, hout⟩
  · simp [hfault ra rfl] at ht
  · cases hi
    rw [hout, show (⟨ra.toNat, hlt⟩ : RegIdx) = r from Fin.ext hr]

/-- Every step but a completed PRN leaves the output as it is. -/
theorem step_out_of_not_prn {s t : State} (h : step s = .next t)
    (hn : ¬ ∃ ra, s.status = .running ∧ fetch s = .instr (.prn ra) ∧ t.status = .running) : t.out = s.out := by
  rcases step_cases h with ⟨-, rfl⟩ | ⟨-, c, rfl⟩ | ⟨hs, i, hf, hends⟩
  · rfl
  · rfl
  · rcases hends.out_cases with ⟨hout, -⟩ | ⟨hst, ra, rfl, -⟩
    · exact hout
    · exact absurd ⟨ra, hs, hf, hst.trans hs⟩ hn

/-- Settles O23 from the two clauses of the step and the load. -/
theorem outputGrowsByPrnAlone : Obligations.OutputGrowsByPrnAlone :=
  ⟨fun _ _ h => ⟨fun _ _ hs hf hr ht => step_prn_out h hs hf hr ht, step_out_of_not_prn h⟩, fun _ _ _ => load_out⟩

/-! ### The shapes of the seventeen meanings

`exec` has seventeen arms and five shapes. What is proved over the shapes is proved of every instruction. -/

/-- The shape of an instruction's meaning. -/
inductive ExecShape : Instr → Prop where
  | aluTwo {i : Instr} (op : AluOp) (ra rb : Byte) (hm : i.mnemonic = op.mnemonic)
      (hregs : i.regOperands = [ra, rb]) (hreads : readOperands i = [ra, rb])
      (hexec : ∀ s, exec i s = .next (aluTwo op ra rb s)) : ExecShape i
  | aluOne {i : Instr} (op : AluOp) (ra : Byte) (hm : i.mnemonic = op.mnemonic)
      (hregs : i.regOperands = [ra]) (hreads : readOperands i = [ra])
      (hexec : ∀ s, exec i s = .next (aluOne op ra s)) : ExecShape i
  | ldi (ra imm : Byte) : ExecShape (.ldi ra imm)
  | prn (ra : Byte) : ExecShape (.prn ra)
  | hlt : ExecShape .hlt

theorem execShape (i : Instr) : ExecShape i := by
  cases i with
  | add ra rb => exact .aluTwo .add ra rb rfl rfl rfl fun _ => rfl
  | sub ra rb => exact .aluTwo .sub ra rb rfl rfl rfl fun _ => rfl
  | mul ra rb => exact .aluTwo .mul ra rb rfl rfl rfl fun _ => rfl
  | div ra rb => exact .aluTwo .div ra rb rfl rfl rfl fun _ => rfl
  | mod ra rb => exact .aluTwo .mod ra rb rfl rfl rfl fun _ => rfl
  | inc ra => exact .aluOne .inc ra rfl rfl rfl fun _ => rfl
  | dec ra => exact .aluOne .dec ra rfl rfl rfl fun _ => rfl
  | and ra rb => exact .aluTwo .and ra rb rfl rfl rfl fun _ => rfl
  | or ra rb => exact .aluTwo .or ra rb rfl rfl rfl fun _ => rfl
  | xor ra rb => exact .aluTwo .xor ra rb rfl rfl rfl fun _ => rfl
  | not ra => exact .aluOne .not ra rfl rfl rfl fun _ => rfl
  | shl ra rb => exact .aluTwo .shl ra rb rfl rfl rfl fun _ => rfl
  | shr ra rb => exact .aluTwo .shr ra rb rfl rfl rfl fun _ => rfl
  | cmp ra rb => exact .aluTwo .cmp ra rb rfl rfl rfl fun _ => rfl
  | ldi ra imm => exact .ldi ra imm
  | prn ra => exact .prn ra
  | hlt => exact .hlt

/-! ### Register bytes out of range (10_state.md R23) -/

/-- Taking a fault is exactly the fault entry of 60_exceptions.md R152. -/
theorem faultEntry_raise (c : Cause) (s : State) : FaultEntry c s (raise c s) :=
  ⟨rfl, rfl, fun _ => rfl, fun _ => ⟨rfl, rfl⟩, rfl, rfl, rfl, rfl⟩

theorem firstBadRegister_one {i : Instr} {ra b : Byte} (hregs : i.regOperands = [ra])
    (h : firstBadRegister i = some b) : 8 ≤ ra.toNat ∧ ra = b := by
  simpa [firstBadRegister, hregs, List.find?_singleton] using h

/-- Of two register bytes the second is reported where the first is in range (30_encoding.md R81). -/
theorem firstBadRegister_two {i : Instr} {ra rb b : Byte} (hregs : i.regOperands = [ra, rb])
    (h : firstBadRegister i = some b) :
    (8 ≤ ra.toNat ∧ ra = b) ∨ (ra.toNat < 8 ∧ 8 ≤ rb.toNat ∧ rb = b) := by
  by_cases ha : 8 ≤ ra.toNat
  · exact .inl ⟨ha, by simpa [firstBadRegister, hregs, ha] using h⟩
  · exact .inr ⟨Nat.not_le.mp ha, by simpa [firstBadRegister, hregs, ha, List.find?_singleton] using h⟩

theorem lt_of_firstBadRegister_none {i : Instr} (h : firstBadRegister i = none) {b : Byte}
    (hb : b ∈ i.regOperands) : b.toNat < 8 := by
  simpa using List.find?_eq_none.mp h b hb

/-- An instruction with a register byte out of range takes the fault of the first one. -/
theorem exec_of_firstBadRegister {i : Instr} {b : Byte} (s : State) (h : firstBadRegister i = some b) :
    exec i s = .next (raise (.registerOutOfRange b) s) := by
  cases execShape i with
  | aluTwo op ra rb _ hregs _ hexec =>
    rw [hexec, aluTwo]
    rcases firstBadRegister_two hregs h with ⟨ha, rfl⟩ | ⟨ha, hb, rfl⟩
    · rw [withReg_of_ge ha]
    · rw [withReg_of_lt ha, withReg_of_ge hb]
  | aluOne op ra _ hregs _ hexec =>
    obtain ⟨ha, rfl⟩ := firstBadRegister_one hregs h
    rw [hexec, aluOne, withReg_of_ge ha]
  | ldi ra imm =>
    obtain ⟨ha, rfl⟩ := firstBadRegister_one rfl h
    rw [exec, execLdi, withReg_of_ge ha]
  | prn ra =>
    obtain ⟨ha, rfl⟩ := firstBadRegister_one rfl h
    rw [exec, execPrn, withReg_of_ge ha]
  | hlt => simp [firstBadRegister, Instr.regOperands] at h

/-- The one cause completion can raise. -/
theorem complete_cause (m : Mnemonic) (e : Effect) (s : State) :
    (complete m e s).cause = s.cause ∨ (complete m e s).cause = some (.addressOutOfRange 256) := by
  rcases complete_cases m e s with ⟨-, h⟩ | ⟨-, h⟩
  · exact .inr (by rw [h]; rfl)
  · exact .inl (by simp [h])

/-- The causes that remain once the operands of an ALU instruction are read. -/
theorem aluFinish_cause (op : AluOp) (d : RegIdx) (a b : Word) (s : State) :
    (aluFinish op d a b s).cause = s.cause ∨ (aluFinish op d a b s).cause = some .divisionByZero ∨
      (aluFinish op d a b s).cause = some (.addressOutOfRange 256) := by
  rcases aluFinish_cases op d a b s with h | ⟨-, v, h⟩ | ⟨-, h⟩
  · exact .inr (.inl (by rw [h]; rfl))
  · rw [h]; exact (complete_cause _ _ _).imp_right .inr
  · rw [h]; exact (complete_cause _ _ _).imp_right .inr

/-- An instruction whose register bytes are in range raises no cause but `DivisionByZero` and
`AddressOutOfRange(256)`. -/
theorem exec_cause_of_registers_ok {i : Instr} {s t : State} (hok : firstBadRegister i = none)
    (h : exec i s = .next t) :
    t.cause = s.cause ∨ t.cause = some .divisionByZero ∨ t.cause = some (.addressOutOfRange 256) := by
  have hlt {b : Byte} (hb : b ∈ i.regOperands) : b.toNat < 8 := lt_of_firstBadRegister_none hok hb
  cases execShape i with
  | aluTwo op ra rb _ hregs _ hexec =>
    rw [hexec, aluTwo_of_lt (hlt (by simp [hregs])) (hlt (by simp [hregs]))] at h
    cases h
    exact aluFinish_cause ..
  | aluOne op ra _ hregs _ hexec =>
    rw [hexec, aluOne_of_lt (hlt (by simp [hregs]))] at h
    cases h
    exact aluFinish_cause ..
  | ldi ra imm =>
    rw [exec, execLdi, withReg_of_lt (hlt (by simp [Instr.regOperands]))] at h
    cases h
    exact (complete_cause ..).imp_right .inr
  | prn ra =>
    rw [exec, execPrn, withReg_of_lt (hlt (by simp [Instr.regOperands]))] at h
    cases h
    exact (complete_cause ..).imp_right .inr
  | hlt =>
    cases h
    exact .inl rfl

/-- Settles O20: the register checks come before every other cause an instruction can raise. -/
theorem registerByteOutOfRangeFaults : Obligations.RegisterByteOutOfRangeFaults := by
  refine fun i s => ⟨fun b hb => ⟨_, exec_of_firstBadRegister s hb, faultEntry_raise _ s⟩, ?_⟩
  intro hok t b h hcause
  rcases exec_cause_of_registers_ok hok h with hs | hdiv | haddr
  · exact hs ▸ hcause
  · simp [hdiv] at hcause
  · simp [haddr] at hcause

/-! ### What an instruction reads

Two states that agree on the shift mode and on the registers an instruction reads go through it alike: the same fault,
or a halt, or completion with the same effect. Both noninterference statements follow. -/

/-- `t` and `t'` are what one ending of `i` makes of `s` and of `s'`. -/
def EndsAlike (i : Instr) (s s' t t' : State) : Prop :=
  (∃ c, t = raise c s ∧ t' = raise c s') ∨ (t = s.halt ∧ t' = s'.halt) ∨
  (∃ e, t = complete i.mnemonic e s ∧ t' = complete i.mnemonic e s')

/-- The two states hold the same in every register the instruction reads, unless it reads none because a register byte
is out of range (10_state.md R23). -/
def ReadsAlike (i : Instr) (s s' : State) : Prop :=
  i.wf = true → ∀ b ∈ readOperands i, ∀ hb : b.toNat < 8, s.reg ⟨b.toNat, hb⟩ = s'.reg ⟨b.toNat, hb⟩

section
variable {i : Instr} {s s' : State}

theorem endsAlike_withReg {b : Byte} {use use' : RegIdx → State}
    (hu : ∀ hb : b.toNat < 8, EndsAlike i s s' (use ⟨b.toNat, hb⟩) (use' ⟨b.toNat, hb⟩)) :
    EndsAlike i s s' (withReg b s use) (withReg b s' use') := by
  by_cases hb : b.toNat < 8
  · rw [withReg_of_lt hb, withReg_of_lt hb]
    exact hu hb
  · rw [withReg_of_ge (Nat.not_lt.mp hb), withReg_of_ge (Nat.not_lt.mp hb)]
    exact .inl ⟨_, rfl, rfl⟩

theorem endsAlike_aluFinish {op : AluOp} (hm : i.mnemonic = op.mnemonic)
    (hshift : s.cfg.shiftAmount = s'.cfg.shiftAmount) (d : RegIdx) (a b : Word) :
    EndsAlike i s s' (aluFinish op d a b s) (aluFinish op d a b s') := by
  unfold aluFinish EndsAlike
  rw [← hshift, hm]
  cases aluApply s.cfg.shiftAmount op a b with
  | result v => exact .inr (.inr ⟨.reg d v, rfl, rfl⟩)
  | flags f => exact .inr (.inr ⟨.flags f, rfl, rfl⟩)
  | divZero => exact .inl ⟨.divisionByZero, rfl, rfl⟩

/-- An instruction ends alike from two states that agree on what it reads. -/
theorem exec_endsAlike (hshift : s.cfg.shiftAmount = s'.cfg.shiftAmount) (hr : ReadsAlike i s s') :
    ∃ t t', exec i s = .next t ∧ exec i s' = .next t' ∧ EndsAlike i s s' t t' := by
  cases execShape i with
  | aluTwo op ra rb hm hregs hreads hexec =>
    refine ⟨_, _, hexec s, hexec s', endsAlike_withReg fun ha => endsAlike_withReg fun hb => ?_⟩
    have hwf : i.wf = true := by simp [Instr.wf, hregs, regByteOk, ha, hb]
    rw [hr hwf ra (by simp [hreads]) ha, hr hwf rb (by simp [hreads]) hb]
    exact endsAlike_aluFinish hm hshift ..
  | aluOne op ra hm hregs hreads hexec =>
    refine ⟨_, _, hexec s, hexec s', endsAlike_withReg fun ha => ?_⟩
    have hwf : i.wf = true := by simp [Instr.wf, hregs, regByteOk, ha]
    rw [hr hwf ra (by simp [hreads]) ha]
    exact endsAlike_aluFinish hm hshift ..
  | ldi ra imm => exact ⟨_, _, rfl, rfl, endsAlike_withReg fun ha => .inr (.inr ⟨_, rfl, rfl⟩)⟩
  | prn ra =>
    refine ⟨_, _, rfl, rfl, endsAlike_withReg fun ha => ?_⟩
    have hwf : (Instr.prn ra).wf = true := by simp [Instr.wf, Instr.regOperands, regByteOk, ha]
    rw [hr hwf ra (by simp [readOperands]) ha]
    exact .inr (.inr ⟨_, rfl, rfl⟩)
  | hlt => exact ⟨_, _, rfl, rfl, .inr (.inl ⟨rfl, rfl⟩)⟩

end

/-! ### Completion past the last pc, and within it -/

theorem complete_of_past {m : Mnemonic} {s : State}
    (h : lastPc s.cfg.endOfMemory < s.pc.toNat + s.cfg.instrLength m) (e : Effect) :
    complete m e s = raise (.addressOutOfRange 256) s := by
  simp [complete, h]

theorem complete_of_fits {m : Mnemonic} {s : State}
    (h : s.pc.toNat + s.cfg.instrLength m ≤ lastPc s.cfg.endOfMemory) (e : Effect) :
    complete m e s = (commit e s).setPc (s.pc.toNat + s.cfg.instrLength m) := by
  simp [complete, Nat.not_lt.mpr h]

/-! ### The flags are never read -/

/-- Completion with other flags: those flags stay, or the effect sets the flags in both. -/
theorem complete_setFlags (m : Mnemonic) (e : Effect) (s : State) (f : Flags) :
    complete m e (s.setFlags f) = (complete m e s).setFlags f ∨ complete m e (s.setFlags f) = complete m e s := by
  by_cases h : lastPc s.cfg.endOfMemory < s.pc.toNat + s.cfg.instrLength m
  · rw [complete_of_past h, complete_of_past (s := s.setFlags f) h]
    exact .inl rfl
  · have hfits := Nat.not_lt.mp h
    rw [complete_of_fits hfits, complete_of_fits (s := s.setFlags f) hfits]
    cases e with
    | reg d v => exact .inl rfl
    | flags g => exact .inr rfl
    | emit v => exact .inl rfl

theorem EndsAlike.setFlags {i : Instr} {s t t' : State} {f : Flags} (h : EndsAlike i s (s.setFlags f) t t') :
    t' = t.setFlags f ∨ t' = t := by
  rcases h with ⟨c, rfl, rfl⟩ | ⟨rfl, rfl⟩ | ⟨e, rfl, rfl⟩
  · exact .inl rfl
  · exact .inl rfl
  · exact complete_setFlags ..

/-- A fetch does not look at the flags. -/
@[simp] theorem fetch_setFlags (s : State) (f : Flags) : fetch (s.setFlags f) = fetch s :=
  fetch_congr rfl rfl fun _ => rfl

/-- Settles O22: the fetch and every ending are the same with other flags. -/
theorem flagsAreNeverRead : Obligations.FlagsAreNeverRead := by
  intro s t f h
  by_cases hs : s.status = .running
  · cases hf : fetch s with
    | fault c =>
      rw [step_of_fetch_fault hs hf] at h
      cases h
      exact .inl (step_of_fetch_fault hs (by rw [fetch_setFlags, hf]))
    | instr i =>
      obtain ⟨u, u', hu, hu', halike⟩ :=
        exec_endsAlike (i := i) (s := s) (s' := s.setFlags f) rfl fun _ _ _ _ => rfl
      rw [step_of_fetch hs hf, hu] at h
      cases h
      rw [step_of_fetch (s := s.setFlags f) hs (by rw [fetch_setFlags, hf]), hu']
      exact halike.setFlags.imp (congrArg _) (congrArg _)
  · rw [step_of_not_running hs] at h
    cases h
    exact .inl (step_of_not_running hs)

/-! ### The values of unwritten registers do not matter -/

namespace State.AgreeOnWritten

variable {s s' : State}

theorem raise (h : s.AgreeOnWritten s') (c : Cause) : (raise c s).AgreeOnWritten (raise c s') :=
  { h with status := rfl, cause := rfl }

theorem halt (h : s.AgreeOnWritten s') : s.halt.AgreeOnWritten s'.halt := { h with status := rfl }

theorem setPc (h : s.AgreeOnWritten s') (n : Nat) : (s.setPc n).AgreeOnWritten (s'.setPc n) := { h with pc := rfl }

/-- Writing the same value makes the register agree from then on. -/
theorem setReg (h : s.AgreeOnWritten s') (d : RegIdx) (v : Word) : (s.setReg d v).AgreeOnWritten (s'.setReg d v) :=
  { h with
    written := by simp [h.written]
    regs := fun i hi => by
      by_cases hd : d = i
      · simp [hd]
      · simp only [setReg_isWritten, setReg_reg, hd, if_false] at hi ⊢
        exact h.regs i hi }

theorem commit (h : s.AgreeOnWritten s') (e : Effect) : (commit e s).AgreeOnWritten (commit e s') := by
  cases e with
  | reg d v => exact h.setReg d v
  | flags f => exact { h with flags := rfl }
  | emit v => exact { h with out := by simp [Machine.commit, h.out] }

theorem complete (h : s.AgreeOnWritten s') (m : Mnemonic) (e : Effect) :
    (complete m e s).AgreeOnWritten (complete m e s') := by
  by_cases hpast : lastPc s.cfg.endOfMemory < s.pc.toNat + s.cfg.instrLength m
  · rw [complete_of_past hpast, complete_of_past (s := s') (by rwa [← h.cfg, ← h.pc])]
    exact h.raise _
  · have hfits := Nat.not_lt.mp hpast
    rw [complete_of_fits hfits, complete_of_fits (s := s') (by rwa [← h.cfg, ← h.pc]), ← h.cfg, ← h.pc]
    exact (h.commit e).setPc _

theorem of_endsAlike (h : s.AgreeOnWritten s') {i : Instr} {t t' : State} (halike : EndsAlike i s s' t t') :
    t.AgreeOnWritten t' := by
  rcases halike with ⟨c, rfl, rfl⟩ | ⟨rfl, rfl⟩ | ⟨e, rfl, rfl⟩
  · exact h.raise c
  · exact h.halt
  · exact h.complete _ e

theorem fetch_eq (h : s.AgreeOnWritten s') : fetch s = fetch s' :=
  fetch_congr h.mem h.pc fun _ => by rw [h.cfg]

/-- An instruction that reads no `unwritten` register reads alike in both states. -/
theorem readsAlike (h : s.AgreeOnWritten s') {i : Instr} (hn : readsUnwritten i s = false) : ReadsAlike i s s' := by
  intro hwf b hb hlt
  have hall : ∀ b ∈ readOperands i, s.unwrittenByte b = false := by
    simpa [readsUnwritten, hwf] using hn
  apply h.regs
  simpa [unwrittenByte, hlt] using hall b hb

/-- A step that reads no `unwritten` register keeps the agreement. -/
theorem step (h : s.AgreeOnWritten s') (hn : stepReadsUnwritten s = false) :
    ∃ t t', step s = .next t ∧ step s' = .next t' ∧ t.AgreeOnWritten t' := by
  by_cases hs : s.status = .running
  · have hs' : s'.status = .running := h.status ▸ hs
    cases hf : fetch s with
    | fault c =>
      have hf' : fetch s' = .fault c := h.fetch_eq ▸ hf
      exact ⟨_, _, step_of_fetch_fault hs hf, step_of_fetch_fault hs' hf', h.raise c⟩
    | instr i =>
      have hf' : fetch s' = .instr i := h.fetch_eq ▸ hf
      have hreads : readsUnwritten i s = false := by simpa [stepReadsUnwritten, hs, hf] using hn
      rw [step_of_fetch hs hf, step_of_fetch hs' hf']
      obtain ⟨t, t', ht, ht', halike⟩ := exec_endsAlike (by rw [h.cfg]) (h.readsAlike hreads)
      exact ⟨t, t', ht, ht', h.of_endsAlike halike⟩
  · have hs' : s'.status ≠ .running := h.status ▸ hs
    exact ⟨s, s', step_of_not_running hs, step_of_not_running hs', h⟩

end State.AgreeOnWritten

/-- What the spec determines of a run: its first step, and the rest from there. -/
theorem specDetermined_succ {k : Nat} {s t : State} (h : step s = .next t) :
    specDetermined (k + 1) s = (!stepReadsUnwritten s && specDetermined k t) := by
  simp [specDetermined, h]

theorem not_stepReadsUnwritten_of_specDetermined {k : Nat} {s : State} (h : specDetermined (k + 1) s = true) :
    stepReadsUnwritten s = false := by
  rw [specDetermined, Bool.and_eq_true] at h
  simpa using h.1

/-- Settles O30, by induction on the number of steps: the agreement is a relational invariant. -/
theorem unwrittenValuesDoNotMatter : Obligations.UnwrittenValuesDoNotMatter := by
  intro k
  induction k with
  | zero => exact fun s s' h _ => ⟨s, s', rfl, rfl, h⟩
  | succ k ih =>
    intro s s' h hdet
    have hreads := not_stepReadsUnwritten_of_specDetermined hdet
    obtain ⟨t, t', ht, ht', hagree⟩ := h.step hreads
    rw [specDetermined_succ ht, hreads] at hdet
    rw [run_succ ht, run_succ ht']
    exact ih t t' hagree hdet

/-! ### The dispatcher and what the host reads -/

/-- Settles O7 by the finite table of mnemonics and operations. -/
theorem aluOperationsAreTheAluCategory : Obligations.AluOperationsAreTheAluCategory :=
  ⟨fun m => by cases m <;> decide, fun op => ⟨AluOp.aluOp_mnemonic op, by cases op <;> rfl⟩, rfl, rfl, rfl⟩

/-- Settles O52, the codes by their definitions. -/
theorem hostCodes : Obligations.HostCodes :=
  ⟨⟨rfl, rfl, rfl, rfl⟩, fun _ _ _ _ => ⟨rfl, rfl, rfl, rfl, rfl⟩, State.stopped_iff⟩

/-- The flags byte has its three low bits only. -/
theorem Flags.toByte_toNat_lt (f : Flags) : f.toByte.toNat < 8 := by
  obtain ⟨l, g, e⟩ := f
  revert l g e
  decide

theorem Flags.toByte_low_bits (f : Flags) :
    f.toByte.getLsbD 2 = f.l ∧ f.toByte.getLsbD 1 = f.g ∧ f.toByte.getLsbD 0 = f.e := by
  obtain ⟨l, g, e⟩ := f
  revert l g e
  decide

/-- Settles O53: the three low bits are the flags, and a byte below 8 has no others. -/
theorem flagsByteIsLGE : Obligations.FlagsByteIsLGE := by
  intro f
  obtain ⟨hl, hg, he⟩ := f.toByte_low_bits
  refine ⟨hl, hg, he, fun k hk => Nat.testBit_lt_two_pow ?_⟩
  calc f.toByte.toNat < 2 ^ 3 := f.toByte_toNat_lt
    _ ≤ 2 ^ k := Nat.pow_le_pow_right (by decide) hk

end Sys2Proof.Machine
end

section
/-! SUPPORT. Proofs of the statements about memory (20_memory.md): what the two ports answer, that a memory is its
256 bytes, and that no run changes it. -/

namespace Sys2Proof.Machine

/-! ### The ports of the memory controller -/

/-- Settles O31, by the two answers of the read port. -/
theorem memReadReadsOrReports : Obligations.MemReadReadsOrReports := fun s a =>
  ⟨fun ha => ⟨s.mem.get a, memRead_of_lt (Nat.lt_succ_of_le ha), Memory.read_of_lt (Nat.lt_succ_of_le ha)⟩,
    fun ha => ⟨memRead_of_ge ha, Memory.read_of_ge ha⟩⟩

/-- The write port below 256. -/
theorem Memory.write_of_lt {m : Memory} {a : Nat} (h : a < memSize) (v : Byte) :
    m.write a v = some (m.put a v) := by
  simp only [Memory.write, h, if_true]

/-- The write port from 256 on. -/
theorem Memory.write_of_ge {m : Memory} {a : Nat} (h : memSize ≤ a) (v : Byte) : m.write a v = none := by
  simp only [Memory.write, Nat.not_lt.mpr h, if_false]

theorem memWrite_of_ge {s : State} {a : Nat} (h : memSize ≤ a) (v : Byte) :
    memWrite s a v = .error (.addressOutOfRange (BitVec.ofNat 9 a)) := by
  simp only [memWrite, Memory.write_of_ge h]

/-- Settles O32: below 256 a read after the write tells the one cell, and no field but `mem` is touched. -/
theorem memWriteSetsOneCell : Obligations.MemWriteSetsOneCell := by
  intro s a v hwf
  refine ⟨fun ha => ?_, fun ha => memWrite_of_ge ha v⟩
  have hlt : a < memSize := Nat.lt_succ_of_le ha
  have hread := Memory.read_write hwf (Memory.write_of_lt hlt v)
  refine ⟨{ s with mem := s.mem.put a v }, memWrite_of_lt hlt v, ?_, fun b hb => ?_, ?_⟩
  · rw [hread, if_pos rfl]
  · rw [hread, if_neg hb]
  · exact ⟨fun _ => ⟨rfl, rfl⟩, rfl, rfl, rfl, rfl, rfl, rfl⟩

/-- Settles O13: such a fetch faults with the pc, and the step takes that fault. -/
theorem opcodeFetchPastMemoryFaults : Obligations.OpcodeFetchPastMemoryFaults := fun s hs hpc =>
  ⟨_, step_of_fetch_fault hs (fetch_past_memory hpc), faultEntry_raise _ s⟩

/-! ### A canonical memory is what it reads as

The cells of a canonical memory are exactly the nonzero bytes the read port gives; two strictly sorted lists with the
same cells are equal. -/

/-- A cell of a canonical memory reads as its byte. -/
theorem Memory.get_of_mem {m : Memory} (hm : m.wf) {a : Nat} {v : Byte} (h : (a, v) ∈ m) : m.get a = v := by
  induction m with
  | nil => simp at h
  | cons c rest ih =>
    obtain ⟨b, w⟩ := c
    rcases List.mem_cons.mp h with heq | hrest
    · cases heq
      simp [Memory.get]
    · have hba : b < a := Memory.wf_head hm _ hrest
      simp only [Memory.get, hba.ne, if_false]
      exact ih (Memory.wf_tail hm) hrest

/-- An address that reads as another byte than 0 is listed. -/
theorem Memory.mem_of_get {m : Memory} {a : Nat} (h : m.get a ≠ 0) : (a, m.get a) ∈ m := by
  induction m with
  | nil => exact absurd rfl h
  | cons c rest ih =>
    obtain ⟨b, w⟩ := c
    by_cases hb : b = a
    · simp [Memory.get, hb]
    · simp only [Memory.get, hb, if_false] at h ⊢
      exact List.mem_cons_of_mem _ (ih h)

theorem Memory.mem_iff_read {m : Memory} (hm : m.wf) {a : Nat} {v : Byte} :
    (a, v) ∈ m ↔ m.read a = some v ∧ v ≠ 0 := by
  constructor
  · intro h
    obtain ⟨ha, hv⟩ := hm.2 _ h
    exact ⟨by rw [Memory.read_of_lt ha, Memory.get_of_mem hm h], hv⟩
  · rintro ⟨hread, hv⟩
    rw [Memory.read_of_lt (Memory.lt_of_read hread)] at hread
    cases hread
    exact Memory.mem_of_get hv

/-- A canonical memory is determined by its cells, whatever their order. -/
theorem Memory.eq_of_same_cells {m m' : Memory} (hm : m.wf) (hm' : m'.wf) (h : ∀ c, c ∈ m ↔ c ∈ m') : m = m' := by
  have hnodup {l : Memory} (hl : l.wf) : l.Nodup := hl.1.imp fun hlt heq => (heq ▸ hlt).false
  have hperm : m.Perm m' := (List.perm_ext_iff_of_nodup (hnodup hm) (hnodup hm')).mpr h
  exact hperm.eq_of_pairwise (fun _ _ _ _ hcd hdc => absurd hcd hdc.asymm) hm.1 hm'.1

/-- Settles O33: memories that read alike have the same cells. -/
theorem equalReadsAreEqualMemories : Obligations.EqualReadsAreEqualMemories := by
  intro m m' hm hm' hreads
  have hread (a : Nat) : m.read a = m'.read a := by
    by_cases ha : a < memSize
    · exact hreads a ha
    · rw [Memory.read_of_ge (Nat.not_lt.mp ha), Memory.read_of_ge (Nat.not_lt.mp ha)]
  refine Memory.eq_of_same_cells hm hm' fun (a, v) => ?_
  rw [Memory.mem_iff_read hm, Memory.mem_iff_read hm', hread]

/-! ### No run writes memory or the configuration -/

/-- However an instruction ends, memory and the configuration are as before. -/
theorem ExecEnds.keeps_mem_cfg {i : Instr} {s t : State} (h : ExecEnds i s t) : t.mem = s.mem ∧ t.cfg = s.cfg := by
  rcases h with ⟨-, c, rfl⟩ | ⟨-, rfl⟩ | ⟨-, -, e, -, -, rfl⟩
  · exact ⟨rfl, rfl⟩
  · exact ⟨rfl, rfl⟩
  · simp

theorem step_keeps_mem_cfg {s t : State} (h : step s = .next t) : t.mem = s.mem ∧ t.cfg = s.cfg := by
  rcases step_cases h with ⟨-, rfl⟩ | ⟨-, c, rfl⟩ | ⟨-, i, -, hends⟩
  · exact ⟨rfl, rfl⟩
  · exact ⟨rfl, rfl⟩
  · exact hends.keeps_mem_cfg

/-- A step always answers a next state. -/
theorem step_next (s : State) : ∃ t, step s = .next t := by
  by_cases hs : s.status = .running
  · cases hf : fetch s with
    | instr i =>
      obtain ⟨t, ht, -⟩ := exec_next i s
      exact ⟨t, (step_of_fetch hs hf).trans ht⟩
    | fault c => exact ⟨_, step_of_fetch_fault hs hf⟩
  · exact ⟨s, step_of_not_running hs⟩

/-- Settles O25, by induction on the number of steps. -/
theorem runKeepsMemoryAndConfiguration : Obligations.RunKeepsMemoryAndConfiguration := by
  intro k
  induction k with
  | zero =>
    intro s t h
    cases h
    exact ⟨rfl, rfl⟩
  | succ k ih =>
    intro s t h
    obtain ⟨u, hu⟩ := step_next s
    rw [run_succ hu] at h
    obtain ⟨hmem, hcfg⟩ := ih u t h
    obtain ⟨hmem', hcfg'⟩ := step_keeps_mem_cfg hu
    exact ⟨hmem.trans hmem', hcfg.trans hcfg'⟩

end Sys2Proof.Machine
end

section
/-! SUPPORT. Proofs of the statements about the encoding (30_encoding.md): the decoder and the encoder undo each other,
and the opcode map knows as many bytes as it has entries. -/

namespace Sys2Proof

/-! ### What the decoder answers once the opcode is known -/

section
variable {cfg : Config} {op : Byte} {m : Mnemonic} (hl : cfg.opcodeMap.lookupMnemonic op = some m)
include hl

/-- The converse of `decode_ok`. -/
theorem decode_of_lookup {operands : List Byte} (hk : cfg.operandCount m ≤ operands.length) :
    decode cfg (op :: operands) =
      .ok (m.assemble (operands.getD 0 0) (operands.getD 1 0)) (operands.drop (cfg.operandCount m)) := by
  simp only [decode, hl, Nat.not_lt.mpr hk, if_false]

theorem decode_of_too_short {operands : List Byte} (hk : operands.length < cfg.operandCount m) :
    decode cfg (op :: operands) = .truncated := by
  simp only [decode, hl, hk, if_true]

theorem decode_one_operand (hk : cfg.operandCount m = 1) (b : Byte) (rest : List Byte) :
    decode cfg (op :: b :: rest) = .ok (m.assemble b (rest.getD 0 0)) rest := by
  rw [decode_of_lookup hl (by simp [hk]), hk]
  rfl

theorem decode_two_operands (hk : cfg.operandCount m = 2) (b1 b2 : Byte) (rest : List Byte) :
    decode cfg (op :: b1 :: b2 :: rest) = .ok (m.assemble b1 b2) rest := by
  rw [decode_of_lookup hl (by simp [hk]), hk]
  rfl

end

/-- Settles O1, one row of R74's table after the other. -/
theorem defaultOpcodeBytesDecode : Obligations.DefaultOpcodeBytesDecode := fun _ _ _ =>
  ⟨decode_two_operands (m := .add) rfl rfl _ _ _, decode_two_operands (m := .sub) rfl rfl _ _ _,
    decode_two_operands (m := .mul) rfl rfl _ _ _, decode_two_operands (m := .div) rfl rfl _ _ _,
    decode_two_operands (m := .mod) rfl rfl _ _ _, decode_one_operand (m := .inc) rfl rfl _ _,
    decode_one_operand (m := .dec) rfl rfl _ _, decode_two_operands (m := .and) rfl rfl _ _ _,
    decode_two_operands (m := .or) rfl rfl _ _ _, decode_two_operands (m := .xor) rfl rfl _ _ _,
    decode_one_operand (m := .not) rfl rfl _ _, decode_two_operands (m := .shl) rfl rfl _ _ _,
    decode_two_operands (m := .shr) rfl rfl _ _ _, decode_two_operands (m := .cmp) rfl rfl _ _ _,
    decode_two_operands (m := .ldi) rfl rfl _ _ _, decode_one_operand (m := .prn) rfl rfl _ _,
    decode_of_lookup (m := .hlt) rfl (Nat.zero_le _)⟩

/-- Settles O3: under the two-operand reading both mnemonics take two bytes and assemble from the first. -/
theorem incDecIgnoreTheirThirdByte : Obligations.IncDecIgnoreTheirThirdByte := by
  intro cfg op ra x rest htwo
  have hinc : cfg.operandCount .inc = 2 := by simp [Config.operandCount, Config.format, htwo, Format.operandCount]
  have hdec : cfg.operandCount .dec = 2 := hinc
  exact ⟨fun hl => ⟨decode_two_operands hl hinc ra x rest, decode_of_too_short hl (by simp [hinc])⟩,
    fun hl => ⟨decode_two_operands hl hdec ra x rest, decode_of_too_short hl (by simp [hdec])⟩⟩

/-! ### How many bytes an opcode map knows -/

/-- The bytes with an instruction are the keys of the map. -/
theorem isSome_lookupMnemonic_iff (map : OpcodeMap) (op : Byte) :
    (map.lookupMnemonic op).isSome = true ↔ op ∈ map.map Prod.fst := by
  induction map with
  | nil => simp [OpcodeMap.lookupMnemonic]
  | cons entry rest ih =>
    obtain ⟨b, m⟩ := entry
    by_cases hb : b = op
    · simp [OpcodeMap.lookupMnemonic, hb]
    · simp [OpcodeMap.lookupMnemonic, hb, Ne.symm hb, ih]

/-- The known bytes, as numbers, are the keys in some order. -/
theorem knownBytes_perm {map : OpcodeMap} (hm : map.isMap) :
    ((List.range 256).filter fun n => (map.lookupMnemonic (BitVec.ofNat 8 n)).isSome).Perm
      ((map.map Prod.fst).map BitVec.toNat) := by
  refine (List.perm_ext_iff_of_nodup (List.nodup_range.filter _)
    (hm.map fun _ _ => BitVec.eq_of_toNat_eq)).mpr fun n => ?_
  rw [List.mem_filter, List.mem_range, isSome_lookupMnemonic_iff, List.mem_map (f := BitVec.toNat)]
  constructor
  · rintro ⟨hn, hmem⟩
    exact ⟨_, hmem, (BitVec.toNat_ofNat n 8).trans (Nat.mod_eq_of_lt hn)⟩
  · rintro ⟨b, hb, rfl⟩
    exact ⟨b.isLt, by simpa using hb⟩

/-- A map leaves as many of the 256 byte values unknown as it has no entry for. -/
theorem unknownBytes_length {map : OpcodeMap} (hm : map.isMap) :
    ((List.range 256).filter fun n => (map.lookupMnemonic (BitVec.ofNat 8 n)).isNone).length = 256 - map.length := by
  have hknown := (knownBytes_perm hm).length_eq
  have hall := List.length_eq_length_filter_add (l := List.range 256)
    fun n => (map.lookupMnemonic (BitVec.ofNat 8 n)).isSome
  simp only [Option.not_isSome, List.length_range, List.length_map] at hall hknown
  omega

/-- Settles O2: the default map is an injective map of seventeen entries, none of them for 0. -/
theorem defaultMapLeaves239BytesUnknown : Obligations.DefaultMapLeaves239BytesUnknown := by
  have hwf : Config.default.wf := by decide
  exact ⟨unknownBytes_length hwf.1, rfl, hwf⟩

/-! ### The decoder undoes the encoder -/

/-- The encoder writes as many operand bytes as the dispatcher counts, for every instruction. -/
theorem operandBytes_length (i : Instr) : Laws.OperandCount.Statement i := by
  cases i with
  | add ra rb => exact Laws.OperandCount.add ra rb
  | sub ra rb => exact Laws.OperandCount.sub ra rb
  | mul ra rb => exact Laws.OperandCount.mul ra rb
  | div ra rb => exact Laws.OperandCount.div ra rb
  | mod ra rb => exact Laws.OperandCount.mod ra rb
  | inc ra => exact Laws.OperandCount.inc ra
  | dec ra => exact Laws.OperandCount.dec ra
  | and ra rb => exact Laws.OperandCount.and ra rb
  | or ra rb => exact Laws.OperandCount.or ra rb
  | xor ra rb => exact Laws.OperandCount.xor ra rb
  | not ra => exact Laws.OperandCount.not ra
  | shl ra rb => exact Laws.OperandCount.shl ra rb
  | shr ra rb => exact Laws.OperandCount.shr ra rb
  | cmp ra rb => exact Laws.OperandCount.cmp ra rb
  | ldi ra imm => exact Laws.OperandCount.ldi ra imm
  | prn ra => exact Laws.OperandCount.prn ra
  | hlt => exact Laws.OperandCount.hlt

/-- The operand bytes of every instruction make it again. -/
theorem assemble_operandBytes (i : Instr) : Laws.Reassembly.Statement i := by
  cases i with
  | add ra rb => exact Laws.Reassembly.add ra rb
  | sub ra rb => exact Laws.Reassembly.sub ra rb
  | mul ra rb => exact Laws.Reassembly.mul ra rb
  | div ra rb => exact Laws.Reassembly.div ra rb
  | mod ra rb => exact Laws.Reassembly.mod ra rb
  | inc ra => exact Laws.Reassembly.inc ra
  | dec ra => exact Laws.Reassembly.dec ra
  | and ra rb => exact Laws.Reassembly.and ra rb
  | or ra rb => exact Laws.Reassembly.or ra rb
  | xor ra rb => exact Laws.Reassembly.xor ra rb
  | not ra => exact Laws.Reassembly.not ra
  | shl ra rb => exact Laws.Reassembly.shl ra rb
  | shr ra rb => exact Laws.Reassembly.shr ra rb
  | cmp ra rb => exact Laws.Reassembly.cmp ra rb
  | ldi ra imm => exact Laws.Reassembly.ldi ra imm
  | prn ra => exact Laws.Reassembly.prn ra
  | hlt => exact Laws.Reassembly.hlt

/-- Settles O4: the opcode is read back as the mnemonic, the operand bytes are enough and make the instruction. -/
theorem decodeOfEncodeIsTheInstruction : Obligations.DecodeOfEncodeIsTheInstruction := by
  intro cfg hmap i bytes rest henc
  obtain ⟨op, hop, rfl⟩ := Option.map_eq_some_iff.mp henc
  have hlen := operandBytes_length i cfg
  have hl := lookupMnemonic_of_lookupByte hmap hop
  rw [List.cons_append, decode_of_lookup hl (by simp [hlen]), assemble_operandBytes i cfg rest, List.drop_left' hlen]

/-! ### The encoder undoes the decoder -/

/-- The operand bytes the encoder writes in a format (30_encoding.md R71), with 0 for the ignored byte of `FRX`
(notes/assumptions/9.md). -/
def Format.write : Format → Byte → Byte → List Byte
  | .f0, _, _ => []
  | .fr, b1, _ => [b1]
  | .frr, b1, b2 => [b1, b2]
  | .fri, b1, b2 => [b1, b2]
  | .frx, b1, _ => [b1, 0]

/-- What the encoder writes for an assembled instruction depends on the format alone. -/
theorem operandBytes_assemble (cfg : Config) (m : Mnemonic) (b1 b2 : Byte) :
    operandBytes cfg (m.assemble b1 b2) = (cfg.format m).write b1 b2 := by
  have hincDec : incDecOperandBytes cfg b1 = (cfg.format .inc).write b1 b2 := by
    unfold incDecOperandBytes Config.format
    cases cfg.incDecOperands <;> rfl
  cases m
  case inc => exact hincDec
  case dec => exact hincDec
  all_goals rfl

/-- Format `FRX` is that of INC and DEC under `INCDEC_OPERAND_COUNT = 2` (30_encoding.md R71). -/
theorem format_eq_frx {cfg : Config} {m : Mnemonic} (h : cfg.format m = .frx) :
    cfg.incDecOperands = .two ∧ (m = .inc ∨ m = .dec) := by
  cases hc : cfg.incDecOperands <;> cases m <;> simp_all [Config.format]

theorem exists_cons_cons_of_two_le_length {l : List Byte} (h : 2 ≤ l.length) : ∃ b1 b2 rest, l = b1 :: b2 :: rest := by
  match l, h with
  | b1 :: b2 :: rest, _ => exact ⟨b1, b2, rest, rfl⟩

/-- The operand bytes a decode takes are those the encoder writes, except in format `FRX`. -/
theorem write_append_drop {f : Format} (hf : f ≠ .frx) {operands : List Byte} (hk : f.operandCount ≤ operands.length) :
    f.write (operands.getD 0 0) (operands.getD 1 0) ++ operands.drop f.operandCount = operands := by
  cases f with
  | f0 => rfl
  | fr =>
    obtain ⟨b1, rest, rfl⟩ := List.exists_cons_of_length_pos hk
    rfl
  | frr =>
    obtain ⟨b1, b2, rest, rfl⟩ := exists_cons_cons_of_two_le_length hk
    rfl
  | fri =>
    obtain ⟨b1, b2, rest, rfl⟩ := exists_cons_cons_of_two_le_length hk
    rfl
  | frx => exact absurd rfl hf

/-- Settles O5: the opcode is the byte of the mnemonic, and the operand bytes are those of its format. -/
theorem encodeOfDecodeIsTheBytes : Obligations.EncodeOfDecodeIsTheBytes := by
  intro cfg hinj i bytes rest hdec
  cases bytes with
  | nil => simp [decode] at hdec
  | cons op operands =>
    obtain ⟨m, hl, hk, rfl, rfl⟩ := decode_ok hdec
    refine ⟨op :: (cfg.format m).write (operands.getD 0 0) (operands.getD 1 0), ?_, ?_⟩
    · simp [encode, lookupByte_of_lookupMnemonic hinj hl, operandBytes_assemble]
    by_cases hf : cfg.format m = .frx
    · obtain ⟨htwo, hm⟩ := format_eq_frx hf
      rw [Config.operandCount, hf] at hk ⊢
      obtain ⟨ra, x, rest, rfl⟩ := exists_cons_cons_of_two_le_length hk
      exact .inr ⟨htwo, op, ra, x, by rcases hm with rfl | rfl <;> simp [Mnemonic.assemble], rfl, rfl⟩
    · exact .inl (congrArg (op :: ·) (write_append_drop hf hk).symm)

end Sys2Proof

namespace Sys2Proof.Machine

/-! ### Faults of the fetch -/

/-- A running step whose fetch faults enters that fault. -/
theorem stepFaults_of_fetch {s : State} {c : Cause} (hs : s.status = .running) (hf : fetch s = .fault c) :
    StepFaults c s :=
  ⟨_, step_of_fetch_fault hs hf, faultEntry_raise c s⟩

/-- Settles O11, by the fetch of such a byte. -/
theorem unknownOpcodeFaults : Obligations.UnknownOpcodeFaults := fun _ _ hs hr hl =>
  stepFaults_of_fetch hs (fetch_unknown hr hl)

/-- Settles O12, by the fetch of a known opcode; the mode of the end of memory plays no part in it. -/
theorem operandPastMemoryFaults : Obligations.OperandPastMemoryFaults := fun _ _ _ hs hr hl hend =>
  stepFaults_of_fetch hs ((fetch_known hr hl).1 hend)

/-! ### Which step there is -/

/-- Settles O10, by the inversion lemma of `exec` and the three ways of a step. -/
theorem everyStepAnswersANextState : Obligations.EveryStepAnswersANextState :=
  ⟨fun i s => (exec_next i s).imp fun _ => And.left, step_next⟩

/-- Repeating a step without effect has none. -/
theorem run_of_step_self {s : State} (h : step s = .next s) (k : Nat) : run k s = .next s := by
  induction k with
  | zero => rfl
  | succ k ih => rw [run_succ h, ih]

/-- Settles O9. -/
theorem stepOutsideRunningHasNoEffect : Obligations.StepOutsideRunningHasNoEffect := by
  intro s hs
  have hstep : step s = .next s := step_of_not_running (by rcases hs with h | h | h <;> simp [h])
  exact ⟨hstep, run_of_step_self hstep⟩

/-- Bytes that decode with nothing left over are no more than a fetch reads. -/
theorem length_le_of_decode_all {cfg : Config} {bytes : List Byte} {i : Instr} (h : decode cfg bytes = .ok i []) :
    bytes.length ≤ maxInsnLen := by
  cases bytes with
  | nil => simp
  | cons op operands =>
    obtain ⟨m, -, -, -, hdrop⟩ := decode_ok h
    have hlen : operands.length ≤ cfg.operandCount m := List.drop_eq_nil_iff.mp hdrop.symm
    have hmax : cfg.instrLength m ≤ 3 := (instrLength_bounds cfg m).2
    simp only [Config.instrLength] at hmax
    simp only [List.length_cons, maxInsnLen]
    omega

/-- A fetch answers the instruction whose bytes stand at the pc. -/
theorem fetch_of_reads {s : State} {i : Instr} {bytes : List Byte} (hdec : decode s.cfg bytes = .ok i [])
    (hreads : ∀ k (h : k < bytes.length), s.mem.read (s.pc.toNat + k) = some bytes[k]) : fetch s = .instr i := by
  obtain ⟨more, hbytes⟩ := bytesFrom_of_reads s bytes s.pc.toNat maxInsnLen (length_le_of_decode_all hdec) hreads
  simp only [fetch, hbytes, decode_append hdec more]

/-- Settles O8, by the fetch. -/
theorem stepRunsTheDecodedInstruction : Obligations.StepRunsTheDecodedInstruction := fun _ _ _ hs hdec hreads =>
  step_of_fetch hs (fetch_of_reads hdec hreads)

/-! ### A step that completes -/

/-- A step of an instruction other than HLT that does not fault commits an effect and moves past the instruction. -/
theorem step_completes {s t : State} {i : Instr} (hs : s.status = .running) (hf : fetch s = .instr i) (hi : i ≠ .hlt)
    (h : step s = .next t) (ht : t.status ≠ .faulted) :
    ∃ e, s.pc.toNat + s.cfg.instrLength i.mnemonic ≤ 256 ∧
      t = (commit e s).setPc (s.pc.toNat + s.cfg.instrLength i.mnemonic) := by
  rw [step_of_fetch hs hf] at h
  rcases exec_cases h with ⟨-, c, rfl⟩ | ⟨rfl, -⟩ | ⟨-, -, e, -, hfits, rfl⟩
  · exact absurd rfl ht
  · exact absurd rfl hi
  · exact ⟨e, hfits.trans (lastPc_le _), rfl⟩

theorem setPc_advances {s u : State} {len : Nat} (h : s.pc.toNat + len ≤ 256) :
    Advances len s (u.setPc (s.pc.toNat + len)) :=
  toNat_ofNat_pc h

/-- Settles O6: the lengths by the formats of R71, the advance by completion. -/
theorem lengthRuleAndAdvance : Obligations.LengthRuleAndAdvance := by
  refine ⟨fun cfg m => ⟨rfl, ?_⟩, fun s t i hs hf hi h ht => ?_⟩
  · have hincDec : cfg.instrLength .inc = incDecLength cfg := by
      unfold Config.instrLength Config.operandCount Config.format incDecLength
      cases cfg.incDecOperands <;> rfl
    cases m
    case inc => exact hincDec
    case dec => exact hincDec
    all_goals rfl
  · obtain ⟨e, hfits, rfl⟩ := step_completes hs hf hi h ht
    exact setPc_advances hfits

/-- Settles O14: completion leaves the pc at 256, where no opcode can be fetched. -/
theorem lastByteCompletesThenNextFetchFaults : Obligations.LastByteCompletesThenNextFetchFaults := by
  intro s t i _ hs hf hi hlast h ht
  obtain ⟨e, -, rfl⟩ := step_completes hs hf hi h ht
  rw [hlast]
  exact ⟨rfl, stepFaults_of_fetch (by simp [hs]) (fetch_past_memory (Nat.le_refl 256))⟩

/-- A commit changes one register, or the flags, or appends one output event (30_encoding.md R83). -/
theorem commit_changes_one (e : Effect) (s : State) :
    (KeepsRegs s (commit e s) ∧ (commit e s).out = s.out) ∨
    ((commit e s).flags = s.flags ∧ (commit e s).out = s.out ∧ ∃ d : RegIdx, ∀ j : RegIdx, j ≠ d →
      (commit e s).reg j = s.reg j ∧ (commit e s).isWritten j = s.isWritten j) ∨
    (KeepsRegs s (commit e s) ∧ (commit e s).flags = s.flags ∧ ∃ v, (commit e s).out = s.out ++ [v]) := by
  cases e with
  | flags f => exact .inl ⟨fun _ => ⟨rfl, rfl⟩, rfl⟩
  | reg d v => exact .inr (.inl ⟨rfl, rfl, d, fun j hj => by simp [commit, hj.symm]⟩)
  | emit v => exact .inr (.inr ⟨fun _ => ⟨rfl, rfl⟩, rfl, v, rfl⟩)

/-- Settles O18, over the endings of what the step fetched. -/
theorem stepIsAtomic : Obligations.StepIsAtomic := by
  intro s hs
  obtain ⟨t, h⟩ := step_next s
  refine ⟨t, h, ?_⟩
  rcases step_cases h with ⟨hns, -⟩ | ⟨-, c, rfl⟩ | ⟨-, i, hf, hends⟩
  · exact absurd hs hns
  · exact .inl ⟨c, faultEntry_raise c s⟩
  rcases hends with ⟨-, c, rfl⟩ | ⟨hi, rfl⟩ | ⟨hi, -, e, -, hfits, rfl⟩
  · exact .inl ⟨c, faultEntry_raise c s⟩
  · exact .inr ⟨fun _ => rfl, rfl, rfl, ⟨i, hf, .inl ⟨hi, rfl, rfl⟩⟩, .inl ⟨fun _ => ⟨rfl, rfl⟩, rfl⟩⟩
  · refine .inr ⟨fun _ => by simp, by simp, by simp, ⟨i, hf, .inr ⟨hi, by simp [hs], ?_⟩⟩, commit_changes_one e s⟩
    exact setPc_advances (hfits.trans (lastPc_le _))

/-! ### The two modes of the end of memory -/

section
variable (mode : EndOfMemoryMode)

/-- A fetch does not look at the mode. -/
@[simp] theorem fetch_withEndOfMemory (s : State) : fetch (withEndOfMemory mode s) = fetch s :=
  fetch_congr rfl rfl fun _ => rfl

/-- Where an instruction does not end at 256, the advance check comes out the same in both modes. -/
theorem lastPc_lt_iff {n : Nat} (h : n ≠ 256) : lastPc mode < n ↔ 256 < n := by
  cases mode with
  | faultAtAdvance =>
    simp only [lastPc]
    omega
  | faultAtNextFetch => rfl

theorem commit_withEndOfMemory (e : Effect) (s : State) :
    commit e (withEndOfMemory mode s) = withEndOfMemory mode (commit e s) := by
  cases e <;> rfl

theorem complete_withEndOfMemory {m : Mnemonic} {s : State} (h : s.pc.toNat + s.cfg.instrLength m ≠ 256)
    (e : Effect) : complete m e (withEndOfMemory mode s) = withEndOfMemory mode (complete m e s) := by
  by_cases hpast : 256 < s.pc.toNat + s.cfg.instrLength m
  · rw [complete_of_past ((lastPc_lt_iff _ h).mpr hpast),
      complete_of_past (s := withEndOfMemory mode s) ((lastPc_lt_iff _ h).mpr hpast)]
    rfl
  · have hfits (mode' : EndOfMemoryMode) := Nat.not_lt.mp (mt (lastPc_lt_iff mode' h).mp hpast)
    rw [complete_of_fits (hfits _), complete_of_fits (s := withEndOfMemory mode s) (hfits _), commit_withEndOfMemory]
    rfl

/-- An instruction that is HLT or does not end at 256 does the same in both modes. -/
theorem exec_withEndOfMemory {i : Instr} {s t : State}
    (hi : i = .hlt ∨ s.pc.toNat + s.cfg.instrLength i.mnemonic ≠ 256) (h : exec i s = .next t) :
    exec i (withEndOfMemory mode s) = .next (withEndOfMemory mode t) := by
  rcases hi with rfl | hlast
  · cases h
    rfl
  obtain ⟨u, u', hu, hu', halike⟩ :=
    exec_endsAlike (i := i) (s := s) (s' := withEndOfMemory mode s) rfl fun _ _ _ _ => rfl
  rw [hu] at h
  cases h
  rw [hu']
  rcases halike with ⟨c, rfl, rfl⟩ | ⟨rfl, rfl⟩ | ⟨e, rfl, rfl⟩
  · rfl
  · rfl
  · rw [complete_withEndOfMemory mode hlast]

end

/-- Settles O15: the fetch is the same, and so is what it gives. -/
theorem endOfMemoryModesAgreeElsewhere : Obligations.EndOfMemoryModesAgreeElsewhere := by
  intro s t mode hlast h
  by_cases hs : s.status = .running
  · cases hf : fetch s with
    | instr i =>
      rw [step_of_fetch hs hf] at h
      rw [step_of_fetch (s := withEndOfMemory mode s) hs (by rw [fetch_withEndOfMemory, hf])]
      exact exec_withEndOfMemory mode (hlast i hf) h
    | fault c =>
      rw [step_of_fetch_fault hs hf] at h
      cases h
      exact step_of_fetch_fault hs (by rw [fetch_withEndOfMemory, hf])
  · rw [step_of_not_running hs] at h
    cases h
    exact step_of_not_running hs

end Sys2Proof.Machine
end

section
/-! SUPPORT. Proofs of the statements about the ALU and its instructions (40_alu.md): its integer laws, how an
instruction that reaches its completion ends, and the course of an instruction over one and over two registers. -/

namespace Sys2Proof.Machine

/-! ### The shift amount and the integer laws -/

/-- The shift amount of the operands block is that of 40_alu.md R112. -/
theorem shiftAmount_eq_shamt (mode : ShiftAmountMode) (b : Word) : shiftAmount mode b = shamt mode b.toNat := by
  cases mode <;> rfl

/-- A word shifted by its width or more is 0, in both directions. -/
theorem aluApply_full_shift_of_ge {b : Word} (h : 8 ≤ b.toNat) (a : Word) :
    aluApply .full .shl a b = .result 0 ∧ aluApply .full .shr a b = .result 0 :=
  ⟨congrArg AluOut.result (BitVec.shiftLeft_eq_zero h), congrArg AluOut.result (BitVec.ushiftRight_eq_zero h)⟩

/-- Settles O51: below 8 the reduction modulo 8 changes nothing, and from 8 on a full shift moves every bit out. -/
theorem shiftAmountModes : Obligations.ShiftAmountModes := by
  refine fun a b => ⟨rfl, rfl, fun h => aluApply_full_shift_of_ge h a, fun h => ?_⟩
  have hsame : shiftAmount .modWidth b = shiftAmount .full b := Nat.mod_eq_of_lt h
  simp only [aluApply, hsame, and_self]

/-- Subtraction of words is subtraction of integers modulo 256 (40_alu.md R102). -/
theorem sub_word_eq_ofInt (a b : Word) : a - b = BitVec.ofInt 8 ((a.toNat : Int) - (b.toNat : Int)) := by
  have ha := a.isLt
  apply BitVec.eq_of_toNat_eq
  rw [toNat_sub_word, BitVec.toNat_ofInt]
  omega

/-- By a divisor other than 0 the ALU answers a quotient and a remainder, unsigned (40_alu.md R104, R105). -/
theorem aluApply_div_mod (mode : ShiftAmountMode) (a : Word) {b : Word} (h : b.toNat ≠ 0) :
    aluApply mode .div a b = .result (a / b) ∧ aluApply mode .mod a b = .result (a % b) := by
  have hb : b ≠ 0 := fun h0 => h (by rw [h0]; rfl)
  exact ⟨if_neg hb, if_neg hb⟩

/-- By 0 the ALU signals `div_zero` for both (40_alu.md R104, R105). -/
theorem aluApply_div_mod_of_zero (mode : ShiftAmountMode) (a : Word) {b : Word} (h : b.toNat = 0) :
    aluApply mode .div a b = .divZero ∧ aluApply mode .mod a b = .divZero := by
  have hb : b = 0 := BitVec.eq_of_toNat_eq h
  exact ⟨(aluApply_divZero_iff ..).mpr ⟨.inl rfl, hb⟩, (aluApply_divZero_iff ..).mpr ⟨.inr rfl, hb⟩⟩

/-- Quotient and remainder put the dividend together again, and the remainder is below the divisor. -/
theorem div_mod_word (a : Word) {b : Word} (h : b.toNat ≠ 0) :
    (a / b).toNat * b.toNat + (a % b).toNat = a.toNat ∧ (a % b).toNat < b.toNat := by
  rw [BitVec.toNat_udiv, BitVec.toNat_umod]
  exact ⟨Nat.div_add_mod' .., Nat.mod_lt _ (Nat.pos_of_ne_zero h)⟩

/-- The bitwise operations on one bit (40_alu.md R108 to R111). -/
theorem getLsbD_bitwise_word (a b : Word) {k : Nat} (hk : k < 8) :
    (a &&& b).getLsbD k = (a.getLsbD k && b.getLsbD k) ∧ (a ||| b).getLsbD k = (a.getLsbD k || b.getLsbD k) ∧
      (a ^^^ b).getLsbD k = (a.getLsbD k != b.getLsbD k) ∧ (~~~a).getLsbD k = !a.getLsbD k :=
  ⟨BitVec.getLsbD_and, BitVec.getLsbD_or, by simp, by simp [hk]⟩

/-- Settles O50, operation by operation: each word operation as the reduction of the operation on integers. -/
theorem aluIntegerLaws : Obligations.AluIntegerLaws := by
  intro mode a b
  refine ⟨?add, ?sub, ?mul, ?inc, ?dec, aluApply_div_mod_of_zero mode a, fun hb => ?div,
    ⟨_, _, _, _, rfl, rfl, rfl, rfl, fun _ => getLsbD_bitwise_word a b⟩, ?shl, ?shr, rfl⟩
  case add => simp [aluApply, BitVec.ofNat_add]
  case sub => exact congrArg AluOut.result (sub_word_eq_ofInt a b)
  case mul => simp [aluApply, BitVec.ofNat_mul]
  case inc => simp [aluApply, BitVec.ofNat_add]
  case dec => exact congrArg AluOut.result (sub_word_eq_ofInt a 1)
  case div =>
    obtain ⟨hdiv, hmod⟩ := aluApply_div_mod mode a hb
    exact ⟨_, _, hdiv, hmod, div_mod_word a hb⟩
  case shl =>
    rw [← shiftAmount_eq_shamt]
    exact congrArg AluOut.result (BitVec.eq_of_toNat_eq (toNat_shl_word a _))
  case shr =>
    rw [← shiftAmount_eq_shamt, ← toNat_shr_word, BitVec.ofNat_toNat, BitVec.setWidth_eq]
    rfl

/-! ### How an instruction that reaches its completion ends -/

/-- An instruction fits where the advance check of its completion passes (30_encoding.md R84, R85). -/
theorem fits_iff {len : Nat} {s : State} : Fits len s ↔ s.pc.toNat + len ≤ lastPc s.cfg.endOfMemory := by
  cases h : s.cfg.endOfMemory with
  | faultAtAdvance =>
    simp only [Fits, lastPc, h, reduceCtorEq, false_and, or_false]
    omega
  | faultAtNextFetch =>
    simp only [Fits, lastPc, h, true_and]
    omega

/-- An instruction that answers a raised fault takes that fault. -/
theorem execFaults_of_raise {i : Instr} {c : Cause} {s : State} (h : exec i s = .next (raise c s)) :
    ExecFaults i c s :=
  ⟨_, h, faultEntry_raise c s⟩

/-- An instruction that reaches its completion commits its effect and advances where it fits, and faults where it does
not (30_encoding.md R80). -/
theorem course_of_complete {i : Instr} {m : Mnemonic} {e : Effect} {s : State} {len : Nat} {Result : State → Prop}
    (h : exec i s = .next (complete m e s)) (hlen : s.cfg.instrLength m = len)
    (hresult : Fits len s → Result ((commit e s).setPc (s.pc.toNat + len))) :
    (Fits len s → ∃ t, exec i s = .next t ∧ Result t) ∧ (¬ Fits len s → ExecFaults i (.addressOutOfRange 256) s) := by
  subst hlen
  refine ⟨fun hfits => ⟨_, ?_, hresult hfits⟩, fun hpast => execFaults_of_raise ?_⟩
  · rw [h, complete_of_fits (fits_iff.mp hfits)]
  · rw [h, complete_of_past (Nat.not_le.mp (mt fits_iff.mpr hpast))]

theorem advances_of_fits {len : Nat} {s u : State} (h : Fits len s) : Advances len s (u.setPc (s.pc.toNat + len)) :=
  setPc_advances ((fits_iff.mp h).trans (lastPc_le _))

/-- A committed register write and the advance change that register and the pc only. -/
theorem regResult_commit {len : Nat} {s : State} (h : Fits len s) (d : RegIdx) (v : Word) :
    RegResult d v.toNat len s ((commit (.reg d v) s).setPc (s.pc.toNat + len)) := by
  have hwrites : WritesReg d v.toNat s (s.setReg d v) := ⟨by simp, by simp, fun i hi => by simp [hi.symm]⟩
  exact ⟨hwrites, rfl, rfl, fun _ => rfl, ⟨rfl, rfl, rfl⟩, advances_of_fits h⟩

/-- A committed comparison and the advance change the flags and the pc only. -/
theorem flagsResult_commit {len : Nat} {s : State} (h : Fits len s) (a b : Word) :
    FlagsResult (a.toNat < b.toNat) (b.toNat < a.toNat) (a.toNat = b.toNat) len s
      ((commit (.flags (compareFlags a b)) s).setPc (s.pc.toNat + len)) :=
  ⟨decide_eq_true_iff, decide_eq_true_iff, decide_eq_true_iff, fun _ => ⟨rfl, rfl⟩, rfl, fun _ => rfl, ⟨rfl, rfl, rfl⟩,
    advances_of_fits h⟩

/-! ### The course of an ALU instruction -/

theorem aluFinish_of_result {op : AluOp} {a b v : Word} {s : State}
    (h : aluApply s.cfg.shiftAmount op a b = .result v) (d : RegIdx) :
    aluFinish op d a b s = complete op.mnemonic (.reg d v) s := by
  simp only [aluFinish, h]

theorem aluFinish_of_divZero {op : AluOp} {a b : Word} {s : State}
    (h : aluApply s.cfg.shiftAmount op a b = .divZero) (d : RegIdx) :
    aluFinish op d a b s = raise .divisionByZero s := by
  simp only [aluFinish, h]

/-- The course of an instruction over one register, from what the ALU answers. -/
theorem oneRegisterRule_of_alu {mk : Byte → Instr} {op : AluOp} {len : Config → Nat} {f : Nat → Nat}
    (hexec : ∀ ra s, exec (mk ra) s = .next (aluOne op ra s)) (hlen : ∀ cfg, cfg.instrLength op.mnemonic = len cfg)
    (halu : ∀ mode a, ∃ v, aluApply mode op a 0 = .result v ∧ v.toNat = f a.toNat) : OneRegisterRule mk len f := by
  refine fun s ra => ⟨fun ha => execFaults_of_raise (by rw [hexec, aluOne, withReg_of_ge ha]), fun i hi => ?_⟩
  obtain ⟨v, hv, hval⟩ := halu s.cfg.shiftAmount (s.reg i)
  have hlt : ra.toNat < 8 := hi ▸ i.isLt
  obtain rfl : ⟨ra.toNat, hlt⟩ = i := Fin.ext hi
  rw [← hval]
  exact course_of_complete (by rw [hexec, aluOne_of_lt hlt, aluFinish_of_result hv]) (hlen s.cfg)
    fun hfits => regResult_commit hfits _ v

section
variable {mk : Byte → Byte → Instr} {op : AluOp} (hexec : ∀ ra rb s, exec (mk ra rb) s = .next (aluTwo op ra rb s))
include hexec

/-- The register checks of an ALU instruction, first operand first (30_encoding.md R81). -/
theorem checksTwo_of_aluTwo (s : State) (ra rb : Byte) : ChecksTwo mk s ra rb := by
  refine ⟨fun ha => execFaults_of_raise ?_, fun ha hb => execFaults_of_raise ?_⟩
  · rw [hexec, aluTwo, withReg_of_ge ha]
  · rw [hexec, aluTwo, withReg_of_lt ha, withReg_of_ge hb]

/-- Past its register checks an ALU instruction finishes on the two registers. -/
theorem exec_aluTwo_of_regs (s : State) {ra rb : Byte} {i j : RegIdx} (hi : ra.toNat = i.val) (hj : rb.toNat = j.val) :
    exec (mk ra rb) s = .next (aluFinish op i (s.reg i) (s.reg j) s) := by
  have ha : ra.toNat < 8 := hi ▸ i.isLt
  have hb : rb.toNat < 8 := hj ▸ j.isLt
  obtain rfl : ⟨ra.toNat, ha⟩ = i := Fin.ext hi
  obtain rfl : ⟨rb.toNat, hb⟩ = j := Fin.ext hj
  rw [hexec, aluTwo_of_lt ha hb]

variable (hlen : ∀ cfg : Config, cfg.instrLength op.mnemonic = 3)
include hlen

/-- Once the ALU answers a result, the instruction's course is that of a register write. -/
theorem course_of_result (s : State) {ra rb : Byte} {i j : RegIdx} (hi : ra.toNat = i.val) (hj : rb.toNat = j.val)
    {v : Word} (hv : aluApply s.cfg.shiftAmount op (s.reg i) (s.reg j) = .result v) :
    (Fits 3 s → ∃ t, exec (mk ra rb) s = .next t ∧ RegResult i v.toNat 3 s t) ∧
      (¬ Fits 3 s → ExecFaults (mk ra rb) (.addressOutOfRange 256) s) :=
  course_of_complete (by rw [exec_aluTwo_of_regs hexec s hi hj, aluFinish_of_result hv]) (hlen s.cfg)
    fun hfits => regResult_commit hfits i v

/-- The course of an instruction over two registers, from what the ALU answers. -/
theorem twoRegisterRule_of_alu {f : ShiftAmountMode → Nat → Nat → Nat}
    (halu : ∀ mode a b, ∃ v, aluApply mode op a b = .result v ∧ v.toNat = f mode a.toNat b.toNat) :
    TwoRegisterRule mk f := by
  refine fun s ra rb => ⟨checksTwo_of_aluTwo hexec s ra rb, fun i j hi hj => ?_⟩
  obtain ⟨v, hv, hval⟩ := halu s.cfg.shiftAmount (s.reg i) (s.reg j)
  rw [← hval]
  exact course_of_result hexec hlen s hi hj hv

/-- The course of a division, from what the ALU answers: the divisor is looked at before the advance check
(60_exceptions.md R154). -/
theorem divisionRule_of_alu {f : Nat → Nat → Nat}
    (hzero : ∀ mode a (b : Word), b.toNat = 0 → aluApply mode op a b = .divZero)
    (halu : ∀ mode a (b : Word), b.toNat ≠ 0 → ∃ v, aluApply mode op a b = .result v ∧ v.toNat = f a.toNat b.toNat) :
    DivisionRule mk f := by
  refine fun s ra rb => ⟨checksTwo_of_aluTwo hexec s ra rb, fun i j hi hj => ⟨fun hb => ?_, ?_⟩⟩
  · refine execFaults_of_raise ?_
    rw [exec_aluTwo_of_regs hexec s hi hj, aluFinish_of_divZero (hzero _ _ _ hb)]
  · rw [← forall_and]
    intro hb
    obtain ⟨v, hv, hval⟩ := halu s.cfg.shiftAmount (s.reg i) (s.reg j) hb
    rw [← hval]
    exact course_of_result hexec hlen s hi hj hv

end

/-! ### The instructions -/

/-- Settles O39, by the sum, difference and product of words as numbers. -/
theorem addSubMulWrap : Obligations.AddSubMulWrap :=
  ⟨twoRegisterRule_of_alu (op := .add) (fun _ _ _ => rfl) (fun _ => rfl) fun _ a b => ⟨_, rfl, BitVec.toNat_add a b⟩,
    twoRegisterRule_of_alu (op := .sub) (fun _ _ _ => rfl) (fun _ => rfl) fun _ a b => ⟨_, rfl, toNat_sub_word a b⟩,
    twoRegisterRule_of_alu (op := .mul) (fun _ _ _ => rfl) (fun _ => rfl) fun _ a b => ⟨_, rfl, BitVec.toNat_mul a b⟩⟩

/-- Settles O40, by the ALU's two answers to a division. -/
theorem divModOrDivisionByZero : Obligations.DivModOrDivisionByZero := by
  constructor
  · refine divisionRule_of_alu (op := .div) (fun _ _ _ => rfl) (fun _ => rfl) (fun mode a b hb => ?_) fun mode a b hb => ?_
    · exact (aluApply_div_mod_of_zero mode a hb).1
    · exact ⟨_, (aluApply_div_mod mode a hb).1, BitVec.toNat_udiv⟩
  · refine divisionRule_of_alu (op := .mod) (fun _ _ _ => rfl) (fun _ => rfl) (fun mode a b hb => ?_) fun mode a b hb => ?_
    · exact (aluApply_div_mod_of_zero mode a hb).2
    · exact ⟨_, (aluApply_div_mod mode a hb).2, BitVec.toNat_umod⟩

/-- Settles O41: adding one and subtracting one as numbers, with the lengths of 30_encoding.md R76. -/
theorem incDecWrap : Obligations.IncDecWrap := by
  obtain ⟨hlengths, -⟩ := lengthRuleAndAdvance
  constructor
  · exact oneRegisterRule_of_alu (op := .inc) (fun _ _ => rfl) (fun cfg => (hlengths cfg .inc).2)
      fun _ a => ⟨_, rfl, BitVec.toNat_add a 1⟩
  · exact oneRegisterRule_of_alu (op := .dec) (fun _ _ => rfl) (fun cfg => (hlengths cfg .dec).2)
      fun _ a => ⟨_, rfl, toNat_sub_word a 1⟩

/-- Settles O42: the bitwise operations of words are those of their numbers. -/
theorem andOrXorBitwise : Obligations.AndOrXorBitwise :=
  ⟨twoRegisterRule_of_alu (op := .and) (fun _ _ _ => rfl) (fun _ => rfl) fun _ a b => ⟨_, rfl, BitVec.toNat_and a b⟩,
    twoRegisterRule_of_alu (op := .or) (fun _ _ _ => rfl) (fun _ => rfl) fun _ a b => ⟨_, rfl, BitVec.toNat_or a b⟩,
    twoRegisterRule_of_alu (op := .xor) (fun _ _ _ => rfl) (fun _ => rfl) fun _ a b => ⟨_, rfl, BitVec.toNat_xor a b⟩⟩

/-- Settles O43, by the complement as the distance from 255. -/
theorem notComplements : Obligations.NotComplements :=
  oneRegisterRule_of_alu (op := .not) (fun _ _ => rfl) (fun _ => rfl) fun _ a => ⟨_, rfl, toNat_not_word a⟩

/-- Settles O44: shifts multiply and divide by a power of two, whose exponent is `shamt` in both modes. -/
theorem shiftsAreLogical : Obligations.ShiftsAreLogical := by
  constructor
  · refine twoRegisterRule_of_alu (op := .shl) (fun _ _ _ => rfl) (fun _ => rfl) fun mode a b => ⟨_, rfl, ?_⟩
    rw [toNat_shl_word, shiftAmount_eq_shamt]
  · refine twoRegisterRule_of_alu (op := .shr) (fun _ _ _ => rfl) (fun _ => rfl) fun mode a b => ⟨_, rfl, ?_⟩
    rw [toNat_shr_word, shiftAmount_eq_shamt]

/-- Settles O45: the ALU drives the flags of the comparison, and they are what completion commits. -/
theorem cmpSetsTheFlags : Obligations.CmpSetsTheFlags := by
  have hexec (ra rb : Byte) (s : State) : exec (.cmp ra rb) s = .next (aluTwo .cmp ra rb s) := rfl
  refine fun s ra rb => ⟨checksTwo_of_aluTwo hexec s ra rb, fun i j hi hj => ?_⟩
  have hcomplete : exec (.cmp ra rb) s = .next (complete .cmp (.flags (compareFlags (s.reg i) (s.reg j))) s) :=
    exec_aluTwo_of_regs hexec s hi hj
  exact course_of_complete hcomplete rfl fun hfits => flagsResult_commit hfits ..

end Sys2Proof.Machine
end

section
/-! SUPPORT. Proofs of the statements about LDI, PRN and HLT (41_ldi_prn_hlt.md): each past its register check, and what
a completed PRN changes. -/

namespace Sys2Proof.Machine

/-- A register byte that is an index is used as that index. -/
theorem withReg_of_index {b : Byte} {s : State} {use : RegIdx → State} {i : RegIdx} (hi : b.toNat = i.val) :
    withReg b s use = use i := by
  have hlt : b.toNat < 8 := hi ▸ i.isLt
  rw [withReg_of_lt hlt, show (⟨b.toNat, hlt⟩ : RegIdx) = i from Fin.ext hi]

/-- An instruction that begins with a register check faults on a byte that is no index (10_state.md R23). -/
theorem execFaults_of_withReg {i : Instr} {b : Byte} {s : State} {use : RegIdx → State}
    (h : exec i s = .next (withReg b s use)) (hb : 8 ≤ b.toNat) : ExecFaults i (.registerOutOfRange b) s :=
  execFaults_of_raise (by rw [h, withReg_of_ge hb])

/-- Past its register check LDI completes with its immediate. -/
theorem exec_ldi_of_reg (s : State) {ra : Byte} {i : RegIdx} (hi : ra.toNat = i.val) (imm : Byte) :
    exec (.ldi ra imm) s = .next (complete .ldi (.reg i imm) s) := by
  rw [exec, execLdi, withReg_of_index hi]

/-- Past its register check PRN completes with its register's value. -/
theorem exec_prn_of_reg (s : State) {ra : Byte} {i : RegIdx} (hi : ra.toNat = i.val) :
    exec (.prn ra) s = .next (complete .prn (.emit (s.reg i)) s) := by
  rw [exec, execPrn, withReg_of_index hi]

/-- A committed output event and the advance change the output and the pc only. -/
theorem emitResult_commit {len : Nat} {s : State} (h : Fits len s) (v : Word) :
    EmitResult v len s ((commit (.emit v) s).setPc (s.pc.toNat + len)) :=
  ⟨rfl, fun _ => ⟨rfl, rfl⟩, rfl, fun _ => rfl, ⟨rfl, rfl, rfl⟩, advances_of_fits h⟩

/-- Settles O46: the register check, then the course of a register write of length 3. -/
theorem ldiWritesTheImmediate : Obligations.LdiWritesTheImmediate := by
  refine fun s ra imm => ⟨execFaults_of_withReg rfl, fun i hi => ?_⟩
  exact course_of_complete (exec_ldi_of_reg s hi imm) rfl fun hfits => regResult_commit hfits i imm

/-- Settles O47: the register check, then the course of an output event of length 2. -/
theorem prnEmitsTheRegister : Obligations.PrnEmitsTheRegister := by
  refine fun s ra => ⟨execFaults_of_withReg rfl, fun i hi => ?_⟩
  exact course_of_complete (exec_prn_of_reg s hi) rfl fun hfits => emitResult_commit hfits (s.reg i)

/-- Settles O48: the halted state differs in its status alone, and a step outside `Running` has no effect. -/
theorem hltHaltsInPlace : Obligations.HltHaltsInPlace := by
  intro s
  have hstep : step s.halt = .next s.halt := step_of_not_running (by simp)
  exact ⟨s.halt, rfl, rfl, rfl, fun _ => ⟨rfl, rfl⟩, rfl, fun _ => rfl, rfl, rfl, rfl, hstep⟩

/-- Settles O49: LDI leaves the immediate in the register and the pc where PRN still fits. -/
theorem ldiThenPrnEmitsTheImmediate : Obligations.LdiThenPrnEmitsTheImmediate := by
  intro s ra v hra hpc
  have ⟨_, hldi⟩ := ldiWritesTheImmediate s ra v
  have ⟨hcompletes, _⟩ := hldi ⟨ra.toNat, hra⟩ rfl
  obtain ⟨t, ht, ⟨hval, -, -⟩, -, hout, -, -, hadv⟩ := hcompletes (.inl (by omega))
  have hfits : Fits 2 t := .inl (by rw [hadv]; omega)
  have ⟨_, hprn⟩ := prnEmitsTheRegister t ra
  have ⟨hemits, _⟩ := hprn ⟨ra.toNat, hra⟩ rfl
  obtain ⟨u, hu, huout, -⟩ := hemits hfits
  refine ⟨t, u, ht, hu, ?_⟩
  rw [huout, hout, BitVec.eq_of_toNat_eq hval]

end Sys2Proof.Machine
end

section
/-! SUPPORT. Proofs of the statements about faults (60_exceptions.md): what a faulting step leaves, and the order in which
the causes of one step are looked at. -/

namespace Sys2Proof.Machine

/-! ### A faulting step changes nothing else -/

/-- A running step that ends in `Faulted` has raised a fault and done nothing else: a halt and a completion leave another
status. -/
theorem step_faulted_eq_raise {s t : State} (hs : s.status = .running) (h : step s = .next t) (ht : t.status = .faulted) :
    ∃ c, t = raise c s := by
  rcases step_cases h with ⟨hns, -⟩ | ⟨-, hraise⟩ | ⟨-, i, -, hends⟩
  · exact absurd hs hns
  · exact hraise
  rcases hends with ⟨-, hraise⟩ | ⟨-, rfl⟩ | ⟨-, -, e, -, -, rfl⟩
  · exact hraise
  · simp at ht
  · simp [hs] at ht

/-- Settles O17: the step raised a fault, and a step outside `Running` has no effect. -/
theorem faultsArePrecise : Obligations.FaultsArePrecise := by
  intro s t hs h ht
  obtain ⟨c, rfl⟩ := step_faulted_eq_raise hs h ht
  exact ⟨c, faultEntry_raise c s, step_of_not_running (by simp)⟩

/-! ### The causes a step can raise -/

/-- A fetch raises `UnknownOpcode` or `AddressOutOfRange`. -/
theorem fetch_fault_cases {s : State} {c : Cause} (h : fetch s = .fault c) :
    (∃ a op, c = .unknownOpcode a op) ∨ ∃ a, c = .addressOutOfRange a := by
  unfold fetch at h
  cases hdec : decode s.cfg (bytesFrom s s.pc.toNat maxInsnLen) with
  | ok i rest => simp [hdec] at h
  | unknownOpcode op => exact .inl ⟨_, op, by simpa [hdec] using h.symm⟩
  | truncated => exact .inr ⟨_, by simpa [hdec] using h.symm⟩

/-- An instruction never raises `ProgramTooLarge`, the cause of a load alone. -/
theorem exec_cause_programTooLarge {i : Instr} {s t : State} (h : exec i s = .next t)
    (hcause : t.cause = some .programTooLarge) : s.cause = some .programTooLarge := by
  cases hbad : firstBadRegister i with
  | some b =>
    rw [exec_of_firstBadRegister s hbad] at h
    cases h
    simp at hcause
  | none =>
    rcases exec_cause_of_registers_ok hbad h with hs | hdiv | haddr
    · exact hs ▸ hcause
    · simp [hdiv] at hcause
    · simp [haddr] at hcause

/-- A step never raises `ProgramTooLarge`. -/
theorem step_cause_programTooLarge {s t : State} (hs : s.status = .running) (h : step s = .next t)
    (hcause : t.cause = some .programTooLarge) : s.cause = some .programTooLarge := by
  cases hf : fetch s with
  | instr i => exact exec_cause_programTooLarge (step_of_fetch hs hf ▸ h) hcause
  | fault c =>
    rw [step_of_fetch_fault hs hf] at h
    cases h
    rcases fetch_fault_cases hf with ⟨a, op, rfl⟩ | ⟨a, rfl⟩ <;> simp at hcause

/-! ### The order of the checks of an instruction: registers, divisor, advance (60_exceptions.md R154) -/

/-- A running step takes the fault of the instruction it fetched. -/
theorem stepFaults_of_execFaults {s : State} {i : Instr} {c : Cause} (hs : s.status = .running) (hf : fetch s = .instr i)
    (h : ExecFaults i c s) : StepFaults c s := by
  rw [StepFaults, step_of_fetch hs hf]
  exact h

/-- DIV and MOD are the instructions of the two operations that signal `div_zero`. -/
theorem eq_div_or_mod {i : Instr} {op : AluOp} (hm : i.mnemonic = op.mnemonic) (hop : op = .div ∨ op = .mod) :
    ∃ ra rb, i = .div ra rb ∨ i = .mod ra rb := by
  rcases hop with rfl | rfl <;> cases i <;> simp_all [Instr.mnemonic, AluOp.mnemonic]

/-- A division whose destination byte is in range and whose divisor register holds 0 takes `DivisionByZero`. -/
theorem DivisionRule.execFaults_of_zero {mk : Byte → Byte → Instr} {f : Nat → Nat → Nat} (hrule : DivisionRule mk f)
    {s : State} {ra rb : Byte} {j : RegIdx} (hra : ra.toNat < 8) (hj : rb.toNat = j.val) (hzero : s.reg j = 0) :
    ExecFaults (mk ra rb) .divisionByZero s := by
  obtain ⟨-, hcourse⟩ := hrule s ra rb
  obtain ⟨hdivZero, -⟩ := hcourse ⟨ra.toNat, hra⟩ j rfl hj
  exact hdivZero (by simp [hzero])

/-- DIV and MOD with their register bytes in range look at the divisor first. -/
theorem execFaults_divisionByZero {i : Instr} {s : State} (hok : firstBadRegister i = none) (hdiv : DividesByZero i s) :
    ExecFaults i .divisionByZero s := by
  obtain ⟨ra, rb, j, hi, hj, hzero⟩ := hdiv
  obtain ⟨hdivRule, hmodRule⟩ := divModOrDivisionByZero
  have hra : ra.toNat < 8 := lt_of_firstBadRegister_none hok (by rcases hi with rfl | rfl <;> simp [Instr.regOperands])
  rcases hi with rfl | rfl
  · exact hdivRule.execFaults_of_zero hra hj hzero
  · exact hmodRule.execFaults_of_zero hra hj hzero

/-- An ALU instruction completes unless the ALU signals `div_zero`. -/
theorem aluFinish_completes {op : AluOp} {a b : Word} {s : State} (h : aluApply s.cfg.shiftAmount op a b ≠ .divZero)
    (d : RegIdx) : ∃ e, aluFinish op d a b s = complete op.mnemonic e s := by
  unfold aluFinish
  cases halu : aluApply s.cfg.shiftAmount op a b with
  | result v => exact ⟨.reg d v, rfl⟩
  | flags f => exact ⟨.flags f, rfl⟩
  | divZero => exact absurd halu h

/-- An instruction other than HLT with its register bytes in range and no division by zero reaches its completion. -/
theorem exec_completes {i : Instr} {s : State} (hok : firstBadRegister i = none) (hdiv : ¬ DividesByZero i s)
    (hhlt : i ≠ .hlt) : ∃ e, exec i s = .next (complete i.mnemonic e s) := by
  have hlt {b : Byte} (hb : b ∈ i.regOperands) : b.toNat < 8 := lt_of_firstBadRegister_none hok hb
  cases execShape i with
  | aluTwo op ra rb hm hregs _ hexec =>
    have hb : rb.toNat < 8 := hlt (by simp [hregs])
    rw [hexec, aluTwo_of_lt (hlt (by simp [hregs])) hb, hm]
    refine (aluFinish_completes (fun hz => hdiv ?_) _).imp fun e he => by rw [he]
    obtain ⟨hop, hzero⟩ := (aluApply_divZero_iff ..).mp hz
    obtain ⟨ra', rb', hi⟩ := eq_div_or_mod hm hop
    obtain ⟨rfl, rfl⟩ : ra' = ra ∧ rb' = rb := by rcases hi with rfl | rfl <;> simpa [Instr.regOperands] using hregs
    exact ⟨_, _, ⟨_, hb⟩, hi, rfl, hzero⟩
  | aluOne op ra hm hregs _ hexec =>
    rw [hexec, aluOne_of_lt (hlt (by simp [hregs])), hm]
    refine (aluFinish_completes (fun hz => ?_) _).imp fun e he => by rw [he]
    obtain ⟨ra', rb', hi⟩ := eq_div_or_mod hm ((aluApply_divZero_iff ..).mp hz).1
    rcases hi with rfl | rfl <;> simp [Instr.regOperands] at hregs
  | ldi ra imm => exact ⟨_, exec_ldi_of_reg s (i := ⟨ra.toNat, hlt (by simp [Instr.regOperands])⟩) rfl imm⟩
  | prn ra => exact ⟨_, exec_prn_of_reg s (i := ⟨ra.toNat, hlt (by simp [Instr.regOperands])⟩) rfl⟩
  | hlt => exact absurd rfl hhlt

/-- The advance check is the last: it faults an instruction that reaches its completion and does not fit. -/
theorem execFaults_advance {i : Instr} {s : State} (hok : firstBadRegister i = none) (hdiv : ¬ DividesByZero i s)
    (hhlt : i ≠ .hlt) (hpast : ¬ Fits (s.cfg.instrLength i.mnemonic) s) : ExecFaults i (.addressOutOfRange 256) s := by
  obtain ⟨e, he⟩ := exec_completes hok hdiv hhlt
  exact execFaults_of_raise (by rw [he, complete_of_past (Nat.not_le.mp (mt fits_iff.mpr hpast))])

/-- Settles O16, place by place of R154: opcode and operand bytes in the fetch, then register bytes, divisor and advance
in the instruction. -/
theorem faultsAreReportedInOrder : Obligations.FaultsAreReportedInOrder := by
  refine fun s hs => ⟨fun t => step_cause_programTooLarge hs, fun op hr =>
    ⟨unknownOpcodeFaults s op hs hr, fun m hl => ⟨operandPastMemoryFaults s op m hs hr hl, fun hend => ?_⟩⟩⟩
  obtain ⟨i, hf, rfl⟩ := (fetch_known hr hl).2 hend
  have hstep {c : Cause} : ExecFaults i c s → StepFaults c s := stepFaults_of_execFaults hs hf
  have ⟨hbad, _⟩ := registerByteOutOfRangeFaults i s
  exact ⟨i, hf, rfl, fun b hb => hstep (hbad b hb), fun hok hdiv => hstep (execFaults_divisionByZero hok hdiv),
    fun hok hdiv hhlt hpast => hstep (execFaults_advance hok hdiv hhlt hpast)⟩

end Sys2Proof.Machine
end

section
/-! SUPPORT. Proofs of the statements about reset and load (70_reset_and_hazards.md): what the load transaction answers in
each status, and that every run ends. -/

namespace Sys2Proof.Machine

/-! ### The load transaction -/

/-- Settles O36, the one status in which `load` refuses. -/
theorem loadWhileRunningIsRefused : Obligations.LoadWhileRunningIsRefused := by
  intro prog s hs
  simp only [load, hs]

/-- Settles O37: a load that is not refused answers the fresh state, into which only the configuration and the program
go. -/
theorem freshLoadForgetsTheRunBefore : Obligations.FreshLoadForgetsTheRunBefore := by
  intro prog s s' hs hs' hcfg
  rw [load_of_not_running hs, load_of_not_running hs', hcfg]

/-- The statuses that accept a load are those outside `Running` (10_state.md R29). -/
theorem Status.ne_running_iff (st : Status) : st ≠ .running ↔ st = .idle ∨ st = .halted ∨ st = .faulted := by
  cases st <;> simp

/-- Settles O35: both ways of a fresh load start from the power-on state; one puts the program in memory, the other
raises `ProgramTooLarge`. -/
theorem loadResetsAndCopies : Obligations.LoadResetsAndCopies := by
  intro prog s hs
  refine ⟨_, load_of_not_running ((Status.ne_running_iff _).mpr hs), ?_⟩
  by_cases hlen : prog.length ≤ memSize
  · obtain ⟨m, hload, -, hread⟩ := loadFresh_fits s.cfg hlen
    rw [hload]
    exact ⟨powerOn_loadResets s, fun _ => ⟨rfl, rfl, fun a ha => (hread a).trans (if_pos ha)⟩,
      fun hlarge => absurd hlen (Nat.not_le.mpr hlarge)⟩
  · rw [loadFresh_too_large s.cfg (Nat.not_le.mp hlen)]
    exact ⟨powerOn_loadResets s, fun hfits => absurd hfits hlen,
      fun _ => ⟨rfl, rfl, fun _ ha => Memory.read_of_lt ha, step_of_not_running (by simp)⟩⟩

/-- Settles O38: the load of no bytes leaves a 0 at the pc, which is an unknown opcode. -/
theorem emptyProgramFaultsAtItsFirstStep : Obligations.EmptyProgramFaultsAtItsFirstStep := by
  intro s hs hzero
  obtain ⟨t, hload, ⟨hcfg, -, -, hpc, -⟩, hfits, -⟩ := loadResetsAndCopies [] s ((Status.ne_running_iff _).mp hs)
  obtain ⟨hrun, -, hread⟩ := hfits (Nat.zero_le _)
  have hfault := unknownOpcodeFaults t 0 hrun (by rw [hpc]; exact hread 0 (by decide)) (hcfg ▸ hzero)
  rw [hpc] at hfault
  exact ⟨t, hload, hrun, hfault⟩

/-! ### Every run ends

Only HLT is one byte long, so each step that lets the run go on moves the pc up by two or more, and never past 256. -/

/-- A running step stops the machine, or the machine runs on with the pc at least two higher and at most 256. -/
theorem step_stops_or_advances {s t : State} (hs : s.status = .running) (h : step s = .next t) :
    t.stopped = true ∨ (t.status = .running ∧ s.pc.toNat + 2 ≤ t.pc.toNat ∧ t.pc.toNat ≤ 256) := by
  rcases step_cases h with ⟨hns, -⟩ | ⟨-, c, rfl⟩ | ⟨-, i, -, hends⟩
  · exact absurd hs hns
  · exact .inl rfl
  rcases hends with ⟨-, c, rfl⟩ | ⟨-, rfl⟩ | ⟨hi, -, e, -, hfits, rfl⟩
  · exact .inl rfl
  · exact .inl rfl
  · have hlen : 2 ≤ s.cfg.instrLength i.mnemonic :=
      instrLength_of_ne_hlt _ (by cases i <;> simp_all [Instr.mnemonic])
    have hlast := hfits.trans (lastPc_le _)
    rw [State.setPc_pc, toNat_ofNat_pc hlast]
    exact .inr ⟨by simp [hs], by omega, hlast⟩

/-- A stopped machine stays as it is for any number of steps. -/
theorem run_of_stopped {s : State} (h : s.stopped = true) (k : Nat) : run k s = .next s := by
  refine run_of_step_self (step_of_not_running ?_) k
  rcases (State.stopped_iff s).mp h with h | h <;> simp [h]

/-- A running machine stops within one step more than it takes to bring the pc to 256 by twos. -/
theorem run_stops {s : State} (hs : s.status = .running) (k : Nat) (hpc : 256 ≤ s.pc.toNat + 2 * k) :
    ∃ t, run (k + 1) s = .next t ∧ t.stopped = true := by
  induction k generalizing s with
  | zero =>
    obtain ⟨t, h⟩ := step_next s
    rcases step_stops_or_advances hs h with hstop | ⟨-, hadv, hlast⟩
    · exact ⟨t, run_succ h, hstop⟩
    · omega
  | succ k ih =>
    obtain ⟨t, h⟩ := step_next s
    rw [run_succ h]
    rcases step_stops_or_advances hs h with hstop | ⟨hrun, hadv, -⟩
    · exact ⟨t, run_of_stopped hstop _, hstop⟩
    · exact ih hrun (by omega)

/-- Settles O26: from any pc, 255 advances by two or more would pass 256. -/
theorem runEndsWithin256Steps : Obligations.RunEndsWithin256Steps := fun _ hs => run_stops hs 255 (by omega)

end Sys2Proof.Machine
end
